-- ==== Sys2Proof/Word.lean ====
section
/-! DEFINITION. The unit of both streams and both buffers (00_scope.md R4, R7): the byte, and sequences of bytes. -/
namespace Sys2Proof

/-- A byte: an unsigned 8-bit value, bit 7 the most significant (R7). -/
abbrev Byte := BitVec 8

/-- A payload: a finite sequence of bytes, index 0 first (R7). -/
abbrev Payload := List Byte

end Sys2Proof
end

