-- ==== Sys2Proof/Config.lean ====
section
/-! DEFINITION. The parameters of the block (00_scope.md R4, 30_encoding.md R61) and the free values of what the spec leaves unspecified. -/
namespace Sys2Proof.Config

/-- `SYNC0`, the first sync byte (R4). -/
def sync0 : Byte := 0xFF#8

/-- `SYNC1`, the second sync byte (R4). -/
def sync1 : Byte := 0x55#8

/-- `MAX_LEN`, the largest legal payload length on both halves (R4, R53). -/
def maxLen : Nat := 254

/-- `RX_CAP`, the capacity of the receive buffer in bytes (R4, R14; the spec's decision D1). -/
def rxCap : Nat := 254

/-- `TX_CAP`, the capacity of the transmit operand latch in bytes (R4, R17; the spec's decision D1). -/
def txCap : Nat := 254

/-- The largest length `tx_req_len` can carry: the port is 8 bits wide (R26). -/
def maxRequest : Nat := 255

/-- Bytes of a frame beside its payload: two sync bytes, the length and the checksum (R4, R50). -/
def overhead : Nat := 4

/-- `RX_PREV_CARRY` (R4, R71; the spec's decision D3, log 4): `rx_prev` is the previous byte of the
stream in every state. The receive functions take the parameter as an argument, so a claim can be
made of both values; the machine runs with this one. -/
def rxPrevCarry : Bool := true

/-- The free values: what `RESET` leaves in the registers R150 calls unspecified (log 2). It has no
body, so nothing can be proved of a value of it; the argument counts the values drawn. -/
opaque freeByte : Nat → Byte

end Sys2Proof.Config
end

