-- ==== Sys2Proof/Machine/Flags.lean ====
section
/-! DEFINITION. The tests and check values computed inside one step and kept nowhere (10_state.md R21): the
checksum and its test (00_scope.md R8, 30_encoding.md R54), the sync test (R72), and the frame a payload
stands for (R8). -/
namespace Sys2Proof

/-- `sum(p)`: the sum of the bytes as a natural number, not reduced (R7). -/
def byteSum (p : Payload) : Nat := (p.map BitVec.toNat).sum

/-- The checksum byte under a given length number (R54): `(0x100 - ((L + sum) mod 256)) mod 256`. -/
def csumFor (len : Nat) (d : Payload) : Byte :=
  BitVec.ofNat 8 ((0x100 - (len + byteSum d) % 256) % 256)

/-- `csum(p)` (R8). -/
def csum (p : Payload) : Byte := csumFor p.length p

/-- `ok(L, d, c)` (R8): the test a receiver applies. -/
def csumOk (len : Byte) (d : Payload) (c : Byte) : Bool :=
  (len.toNat + byteSum d + c.toNat) % 256 == 0

/-- The sync test of `SeekingSync` (R72): there is a previous byte, it is `SYNC0`, and `b` is `SYNC1`. -/
def syncHit (prevValid : Bool) (prev b : Byte) : Bool :=
  prevValid && prev == Config.sync0 && b == Config.sync1

/-- `encode(p)` (R8), the wire bytes of the frame of `p` in the order of R33 and R51. -/
def frameBytes (p : Payload) : List Byte :=
  [Config.sync0, Config.sync1, BitVec.ofNat 8 p.length] ++ p ++ [csum p]

end Sys2Proof
end

