-- ==== Sys2Proof/Syntax.lean ====
section
/-! DEFINITION. The operations of the block: one constructor per row of spec/opcode_table.json. A `Byte`
operand of an `rx…` constructor is the byte the operation consumes, as in `RX.DATA(0x26)` (30_encoding.md
R59); a `Payload` operand is the request's or the frame's payload. The byte a `TX` operation pushes is its
result, no operand. -/
namespace Sys2Proof

inductive Instr where
  /-- `RX.SEEK.HIT` (R72): the sync sequence is detected. -/
  | rxSeekHit (b : Byte)
  /-- `RX.SEEK.MISS` (R73): a byte that does not complete a sync pair. -/
  | rxSeekMiss (b : Byte)
  /-- `RX.LEN.OK` (R74): a legal length byte. -/
  | rxLenOk (b : Byte)
  /-- `RX.LEN.OVERSIZE` (R75): a declared length that exceeds the buffer capacity. -/
  | rxLenOversize (b : Byte)
  /-- `RX.DATA` (R76): a payload byte. -/
  | rxData (b : Byte)
  /-- `RX.CSUM.OK` (R77): the checksum byte, test passed. -/
  | rxCsumOk (b : Byte)
  /-- `RX.CSUM.FAIL` (R78): the checksum byte, test failed. -/
  | rxCsumFail (b : Byte)
  /-- `RX.TAKE` (R79): the consumer has finished with the pending payload. -/
  | rxTake
  /-- `TX.REQ` (R91): accept a payload for encoding. -/
  | txReq (p : Payload)
  /-- `TX.REQ.OVERSIZE` (R92): refuse a payload that is too long; the operand is `tx_req_len`. -/
  | txReqOversize (n : Byte)
  /-- `TX.SYNC0` (R93): push the first sync byte. -/
  | txSync0
  /-- `TX.SYNC1` (R94): push the second sync byte. -/
  | txSync1
  /-- `TX.LEN` (R95): push the length byte. -/
  | txLen
  /-- `TX.DATA` (R96): push one payload byte. -/
  | txData
  /-- `TX.CSUM` (R97): push the checksum byte and finish the frame. -/
  | txCsum
  /-- `RESET` (R150). -/
  | reset
  /-- `FRAME` (R50, R60): the wire frame of payload `p` appears on the input stream (log 7). -/
  | frame (p : Payload)
  deriving DecidableEq, Repr

end Sys2Proof
end

