-- ==== Sys2Proof/WellFormed.lean ====
section
/-! DEFINITION. Which operands an operation can have at all (30_encoding.md R51, R55, R56, R60). -/
namespace Sys2Proof

/-- The operand of `i` is one the encoding of its row admits: the sync byte of `RX.SEEK.HIT` is fixed,
a legal length is at most `MAX_LEN`, an oversize one is above it, a frame's payload fits its length byte. -/
def Instr.wf : Instr → Bool
  | .rxSeekHit b => b == Config.sync1
  | .rxSeekMiss _ => true
  | .rxLenOk b => decide (b.toNat ≤ Config.rxCap)
  | .rxLenOversize b => decide (Config.rxCap < b.toNat)
  | .rxData _ => true
  | .rxCsumOk _ => true
  | .rxCsumFail _ => true
  | .rxTake => true
  | .txReq p => decide (p.length ≤ Config.maxLen)
  | .txReqOversize n => decide (Config.maxLen < n.toNat)
  | .txSync0 => true
  | .txSync1 => true
  | .txLen => true
  | .txData => true
  | .txCsum => true
  | .reset => true
  | .frame p => decide (p.length ≤ Config.maxLen)

end Sys2Proof
end

