-- ==== Sys2Proof/Decode.lean ====
section
/-! DEFINITION. Which operation a step performs: the selection tables R55 (RX) and R56 (TX) of
spec/30_encoding.md, the frame format R50 to R52, the bit patterns of the two state registers (10_state.md
R10, R17), and the encoder. An operation of this block is not fetched from a memory: its "word" is what the
surroundings present together with the columns of the selection table (`Presented`). -/
namespace Sys2Proof

/-- `rx_state` (R10). -/
inductive RxState where
  | seekingSync
  | awaitingLength
  | accumulating
  deriving DecidableEq, Repr

/-- `tx_state` (R17). -/
inductive TxState where
  | idle
  | sync0
  | sync1
  | len
  | data
  | csum
  deriving DecidableEq, Repr

/-- The register pattern of `rx_state` (R10). -/
def RxState.bits : RxState → BitVec 2
  | .seekingSync => 0b00#2
  | .awaitingLength => 0b01#2
  | .accumulating => 0b10#2

/-- The state a pattern stands for; `11` is not a state (R10). -/
def RxState.ofBits (w : BitVec 2) : Option RxState :=
  if w = 0b00#2 then some .seekingSync
  else if w = 0b01#2 then some .awaitingLength
  else if w = 0b10#2 then some .accumulating
  else none

/-- The register pattern of `tx_state` (R17). -/
def TxState.bits : TxState → BitVec 3
  | .idle => 0b000#3
  | .sync0 => 0b001#3
  | .sync1 => 0b010#3
  | .len => 0b011#3
  | .data => 0b100#3
  | .csum => 0b101#3

/-- The state a pattern stands for; `110` and `111` are not states (R17). -/
def TxState.ofBits (w : BitVec 3) : Option TxState :=
  if w = 0b000#3 then some .idle
  else if w = 0b001#3 then some .sync0
  else if w = 0b010#3 then some .sync1
  else if w = 0b011#3 then some .len
  else if w = 0b100#3 then some .data
  else if w = 0b101#3 then some .csum
  else none

/-- Why a buffer access has no answer. -/
inductive BufErr where
  /-- The index is above 253 (R31). -/
  | outOfRange
  /-- Nothing has written the byte, so it has no value (R29; log 3). -/
  | unwritten
  deriving DecidableEq, Repr

/-- The columns of the selection table R55: what the choice of the RX operation reads. -/
structure RxView where
  outValid : Bool
  state : RxState
  prevValid : Bool
  prev : Byte
  len : Byte
  cursor : Byte
  /-- `rx_buf[0..rx_len)`, or why it cannot be read. -/
  data : Except BufErr Payload
  deriving DecidableEq, Repr

/-- The columns of the selection table R56: what the choice of the TX operation reads. -/
structure TxView where
  state : TxState
  len : Byte
  cursor : Byte
  deriving DecidableEq, Repr

/-- What the surroundings present in one step, with the columns the selection reads: the block's
"instruction word". -/
inductive Presented where
  /-- A byte is available at `rx_in`. -/
  | rxByte (v : RxView) (b : Byte)
  /-- The consumer signals `rx_out_take`; the operand is `rx_out_valid`. -/
  | take (outValid : Bool)
  /-- A request waits at `tx_req`. -/
  | request (v : TxView) (p : Payload)
  /-- The sink accepts a byte at `tx_out`. -/
  | sink (v : TxView)
  /-- `rst` is asserted. -/
  | rst
  /-- The source makes these wire bytes available, in order. -/
  | wire (bs : List Byte)
  deriving DecidableEq, Repr

/-- Why what is presented selects no operation. The docstring says what the machine then does. -/
inductive DecodeError where
  /-- A payload is pending, so no byte is consumed (R15, R55): RX waits. -/
  | payloadPending
  /-- `RX.TAKE` with nothing pending is not enabled (R79): no step. -/
  | nothingPending
  /-- A request presented while the encoder is not `Idle` waits (R99). -/
  | encoderBusy
  /-- The sink is ready and the encoder is `Idle`: nothing to emit (R56). -/
  | nothingToEmit
  /-- `rx_cursor > rx_len` in `Accumulating`, which cannot occur (R55): a fault. -/
  | rxCursorPastLength
  /-- `tx_cursor >= tx_len` in `Data`, which cannot occur (93 U7): a fault. -/
  | txCursorPastLength
  /-- The data bytes the checksum test reads cannot be read (R31, 93 U5): a fault. -/
  | unreadableData (e : BufErr)
  /-- A request of more than 255 bytes cannot be presented (R26): a refusal. -/
  | requestTooLong
  /-- The bytes end before the frame does: not one whole frame. -/
  | frameTooShort
  /-- The bytes do not begin with `FF 55` (R50). -/
  | noSyncMarker
  /-- The length byte is above `MAX_LEN` (R53). -/
  | oversizeLength
  /-- The last byte is not the checksum of the frame (R54). -/
  | wrongChecksum
  /-- Bytes follow the frame's checksum byte. -/
  | trailingBytes
  deriving DecidableEq, Repr

/-- Read one frame off the front of a byte list (R50 to R52): its payload and the bytes after it. -/
def decodeFrame : List Byte → Except DecodeError (Payload × List Byte)
  | s0 :: s1 :: len :: rest =>
    if s0 ≠ Config.sync0 ∨ s1 ≠ Config.sync1 then .error .noSyncMarker
    else if Config.maxLen < len.toNat then .error .oversizeLength
    else
      match rest.drop len.toNat with
      | [] => .error .frameTooShort
      | c :: more =>
        if csumOk len (rest.take len.toNat) c then .ok (rest.take len.toNat, more)
        else .error .wrongChecksum
  | _ => .error .frameTooShort

/-- The selection table R55 for a consumed byte `b`. -/
def decodeRx (v : RxView) (b : Byte) : Except DecodeError Instr :=
  if v.outValid then .error .payloadPending
  else
    match v.state with
    | .seekingSync =>
      if syncHit v.prevValid v.prev b then .ok (.rxSeekHit b) else .ok (.rxSeekMiss b)
    | .awaitingLength =>
      if b.toNat ≤ Config.rxCap then .ok (.rxLenOk b) else .ok (.rxLenOversize b)
    | .accumulating =>
      if v.cursor.toNat < v.len.toNat then .ok (.rxData b)
      else if v.len.toNat < v.cursor.toNat then .error .rxCursorPastLength
      else
        match v.data with
        | .error e => .error (.unreadableData e)
        | .ok d => if csumOk v.len d b then .ok (.rxCsumOk b) else .ok (.rxCsumFail b)

/-- The two request rows of R56. -/
def decodeRequest (v : TxView) (p : Payload) : Except DecodeError Instr :=
  if Config.maxRequest < p.length then .error .requestTooLong
  else
    match v.state with
    | .idle =>
      if p.length ≤ Config.maxLen then .ok (.txReq p)
      else .ok (.txReqOversize (BitVec.ofNat 8 p.length))
    | _ => .error .encoderBusy

/-- The five emit rows of R56. -/
def decodeSink (v : TxView) : Except DecodeError Instr :=
  match v.state with
  | .idle => .error .nothingToEmit
  | .sync0 => .ok .txSync0
  | .sync1 => .ok .txSync1
  | .len => .ok .txLen
  | .data => if v.cursor.toNat < v.len.toNat then .ok .txData else .error .txCursorPastLength
  | .csum => .ok .txCsum

/-- The operation that what is presented selects. Total; it rejects by name. -/
def decode : Presented → Except DecodeError Instr
  | .rxByte v b => decodeRx v b
  | .take outValid => if outValid then .ok .rxTake else .error .nothingPending
  | .request v p => decodeRequest v p
  | .sink v => decodeSink v
  | .rst => .ok .reset
  | .wire bs =>
    match decodeFrame bs with
    | .ok (p, []) => .ok (.frame p)
    | .ok (_, _ :: _) => .error .trailingBytes
    | .error e => .error e

/-- Columns of a deframer in `SeekingSync` that has consumed nothing (R29). -/
def seekingFresh : RxView :=
  { outValid := false, state := .seekingSync, prevValid := false, prev := 0#8,
    len := 0#8, cursor := 0#8, data := .ok [] }

/-- The same deframer after an `0xFF` (R72). -/
def seekingArmed : RxView := { seekingFresh with prevValid := true, prev := Config.sync0 }

/-- Columns of a deframer that awaits a length byte. -/
def awaitingView : RxView :=
  { seekingFresh with state := .awaitingLength, prevValid := true, prev := Config.sync1 }

/-- Columns of a deframer that has `k` of the data bytes `d` of a one-byte frame stored. -/
def accumulatingView (k : Byte) (d : Payload) : RxView :=
  { seekingFresh with
    state := .accumulating, prevValid := true, prev := 1#8, len := 1#8, cursor := k, data := .ok d }

/-- Columns of an encoder in state `st` with length `n`, nothing emitted of the payload. -/
def txView (st : TxState) (n : Byte) : TxView := { state := st, len := n, cursor := 0#8 }

/-- What to present so that the well-formed operation `i` is selected: one row of R55 or R56 with the
operand in its place. For the checksum rows the one stored data byte is chosen so that the test passes
(`1 + ~b + b = 256`) or fails (`1 + (-b) + b = 1` or `257`). -/
def encode : Instr → Presented
  | .rxSeekHit b => .rxByte seekingArmed b
  | .rxSeekMiss b => .rxByte seekingFresh b
  | .rxLenOk b => .rxByte awaitingView b
  | .rxLenOversize b => .rxByte awaitingView b
  | .rxData b => .rxByte (accumulatingView 0#8 [0#8]) b
  | .rxCsumOk b => .rxByte (accumulatingView 1#8 [~~~b]) b
  | .rxCsumFail b => .rxByte (accumulatingView 1#8 [-b]) b
  | .rxTake => .take true
  | .txReq p => .request (txView .idle 0#8) p
  | .txReqOversize n => .request (txView .idle 0#8) (List.replicate n.toNat 0#8)
  | .txSync0 => .sink (txView .sync0 0#8)
  | .txSync1 => .sink (txView .sync1 0#8)
  | .txLen => .sink (txView .len 0#8)
  | .txData => .sink (txView .data 1#8)
  | .txCsum => .sink (txView .csum 0#8)
  | .reset => .rst
  | .frame p => .wire (frameBytes p)

/-- The bytes of the input stream in what is presented: one for an `rx_byte` row, the frame for a
`wire_frame` row, none for the others. -/
def Presented.inputBytes : Presented → List Byte
  | .rxByte _ b => [b]
  | .take _ => []
  | .request _ _ => []
  | .sink _ => []
  | .rst => []
  | .wire bs => bs

/-- The `n` bytes of the number `w`, most significant first: the opcode table reads the byte pair of the
FRAME row with the first byte on the wire as the high byte (log 8). -/
def bytesBE : Nat → Nat → List Byte
  | 0, _ => []
  | n + 1, w => BitVec.ofNat 8 (w >>> (8 * n)) :: bytesBE n w

/-- Cut the bytes of one frame off a table word's bytes, the bytes the table gives no bits being zero. -/
def tableFrame (bs : List Byte) : List Byte :=
  let padded := bs ++ List.replicate (Config.maxLen + Config.overhead) 0#8
  padded.take (Config.overhead + (padded.getD 2 0#8).toNat)

/-- What a word of spec/opcode_table.json presents (log 8). No bits: `rst`, the one row without a byte
that is enabled in every state. One byte: that byte at `rx_in`, in the state whose row has it as a fixed
pattern (`0x55` a sync hit, `0xFF` an oversize length), else in `SeekingSync`. More: the bytes of a frame. -/
def tablePresented (nbits w : Nat) : Presented :=
  if nbits = 0 then .rst
  else if nbits ≤ 8 then
    let b : Byte := BitVec.ofNat 8 w
    if b = Config.sync1 then .rxByte seekingArmed b
    else if b = 0xFF#8 then .rxByte awaitingView b
    else .rxByte seekingFresh b
  else .wire (tableFrame (bytesBE ((nbits + 7) / 8) w))

/-- The instruction the decoder reads from a word of spec/opcode_table.json. -/
def decodeTableWord (nbits w : Nat) : Option Instr :=
  match decode (tablePresented nbits w) with
  | .ok i => some i
  | .error _ => none

end Sys2Proof
end

