-- ==== Sys2Proof/Machine/State.lean ====
section
/-! DEFINITION. The state of the machine as plain data: the deframer's and the encoder's registers and buffers
(10_state.md section 1), the surroundings' pending inputs and schedule (10_state.md R25), and the trace (00_scope.md
R9). With it the reasons a step can stop, and the state after reset (R29). -/
namespace Sys2Proof.Machine

/-- A byte buffer: the written bytes as (index, byte) pairs, indices strictly rising. An unlisted index
has no value (log 3). -/
abbrev Memory := List Host.Cell

/-- A diagnostic event with its `ev_info` byte (60_exceptions.md R130). -/
inductive Event where
  | checksumMismatch (b : Byte)
  | oversizeLength (b : Byte)
  | txOversize (n : Byte)
  deriving DecidableEq, Repr

/-- One transfer on an interface of the block (10_state.md R25), in step order on the trace. -/
inductive Obs where
  /-- `in.pop()` gave this byte. -/
  | consumed (b : Byte)
  /-- `deliver(p)`. -/
  | delivered (p : Payload)
  /-- The consumer took the pending payload. -/
  | taken
  /-- `TX.REQ(p)` was accepted. -/
  | accepted (p : Payload)
  /-- `raise e`. -/
  | raised (e : Event)
  /-- `out.push(b)`. -/
  | pushed (b : Byte)
  /-- `RESET` happened. -/
  | wasReset
  deriving DecidableEq, Repr

/-- Whose move it is (00_scope.md R5; log 5). -/
inductive Turn where
  /-- RX consumes the next byte, if one is available and it is enabled. -/
  | rx
  /-- The consumer performs `RX.TAKE`, if a payload is pending. -/
  | take
  /-- TX looks at the request presented at `tx_req`, if there is one. -/
  | request
  /-- The sink accepts a byte: TX emits, if it is emitting. -/
  | sink
  /-- The source makes these bytes available, in order. -/
  | wire (bs : List Byte)
  /-- A producer presents a request. -/
  | present (p : Payload)
  deriving DecidableEq, Repr

/-- One entry of the schedule: the level of `rst` at that moment, and whose move it is. -/
structure Moment where
  rst : Bool
  turn : Turn
  deriving DecidableEq, Repr

/-- The deframer's state (10_state.md R10 to R15). -/
structure Rx where
  /-- `rx_state` -/
  state : RxState
  /-- `rx_prev_valid` -/
  prevValid : Bool
  /-- `rx_prev` -/
  prev : Byte
  /-- `rx_len` -/
  len : Byte
  /-- `rx_cursor` -/
  cursor : Byte
  /-- `rx_buf[0..253]` -/
  buf : Memory
  /-- `rx_out_valid` -/
  outValid : Bool
  deriving DecidableEq, Repr

/-- The encoder's state (10_state.md R17). -/
structure Tx where
  /-- `tx_state` -/
  state : TxState
  /-- `tx_len` -/
  len : Byte
  /-- `tx_cursor` -/
  cursor : Byte
  /-- `tx_buf[0..253]` -/
  buf : Memory
  deriving DecidableEq, Repr

/-- The surroundings: what they have offered and not yet seen consumed, and their schedule. -/
structure Env where
  /-- Bytes available at `rx_in`, oldest first (R32). -/
  rxIn : List Byte
  /-- Requests presented at `tx_req` and not yet accepted, in the order they will be (R99; log 21). -/
  requests : List Payload
  /-- The schedule (log 5). -/
  agenda : List Moment
  deriving DecidableEq, Repr

/-- The whole machine. `freeNext` is the model's own: how many free values have been drawn (log 2). -/
structure State where
  rx : Rx
  tx : Tx
  env : Env
  trace : List Obs
  freeNext : Nat
  deriving DecidableEq, Repr

/-- Why the machine stops. No fault can be reached from reset (R18, INV1 to INV9). -/
inductive Fault where
  /-- A buffer index above 253 (R31): raised by the buffer primitives. Safe: the spec asks for it. -/
  | bufferIndex
  /-- A read of a buffer byte that nothing has written (93 U5): raised by the buffer primitives. Safe. -/
  | bufferUnwritten
  /-- `rx_cursor > rx_len` in `Accumulating` (R55): raised by the operations of that state. Safe: the spec asks for it. -/
  | rxCursorPastLength
  /-- `tx_cursor >= tx_len` in `Data` (93 U7): raised by `TX.DATA`. Safe. -/
  | txCursorPastLength
  deriving DecidableEq, Repr

/-- Why there is no step. -/
inductive Refusal where
  /-- The instruction has no meaning in this model yet: raised by exec's own arms. Safe. -/
  | notModelled (mnemonic : String)
  /-- The operation's guard does not hold, and "a step may only be taken by an enabled operation" (R7):
  raised by the meanings, never by a step of the machine, whose agents wait instead. Safe (log 10). -/
  | notEnabled
  /-- A request of more than 255 bytes cannot be presented at `tx_req` (R26): raised when the schedule
  tries to. Safe (log 11). -/
  | requestTooLong
  deriving DecidableEq, Repr

/-- The machine right after reset (R29). The registers R29 leaves unspecified hold 0 (log 1), the buffers
hold nothing (log 3), and the surroundings have offered nothing (log 9). -/
def State.reset : State :=
  { rx := { state := .seekingSync, prevValid := false, prev := 0#8, len := 0#8, cursor := 0#8,
            buf := [], outValid := false },
    tx := { state := .idle, len := 0#8, cursor := 0#8, buf := [] },
    env := { rxIn := [], requests := [], agenda := [] },
    trace := [],
    freeNext := 0 }

end Sys2Proof.Machine
end

