-- ==== Sys2Proof/Machine/Ops.lean ====
section
/-! DEFINITION. The named operations over buffers, registers and trace that the meanings share: the buffer
primitives (20_memory.md R31), the common tail of R71, the effect of an RX error (60_exceptions.md R136), the
interface transfers (10_state.md R25) and the surroundings' own moves. -/
namespace Sys2Proof.Machine

/-! ### Buffers -/

/-- The byte at an index, if one has been written there. -/
def Memory.read : Memory → Nat → Option Byte
  | [], _ => none
  | (a, v) :: m, i => if i = a then some v else Memory.read m i

/-- Set the byte at an index, keeping the indices strictly rising. -/
def Memory.write : Memory → Nat → Byte → Memory
  | [], i, v => [(i, v)]
  | (a, w) :: m, i, v =>
    if i < a then (i, v) :: (a, w) :: m
    else if i = a then (i, v) :: m
    else (a, w) :: Memory.write m i v

/-- Indices strictly rising from `lo` on, all below the capacity. -/
def Memory.wfFrom : Nat → Memory → Bool
  | _, [] => true
  | lo, (a, _) :: m => decide (lo ≤ a) && decide (a < Config.rxCap) && Memory.wfFrom (a + 1) m

/-- The one canonical form of a buffer: indices strictly rising and at most 253. -/
def Memory.wf (m : Memory) : Bool := Memory.wfFrom 0 m

/-- `MemRead(buf, i)` (R31): an index above 253, or a byte nothing has written, has no answer. -/
def memRead (m : Memory) (i : Nat) : Except BufErr Byte :=
  if Config.rxCap ≤ i then .error .outOfRange
  else
    match m.read i with
    | some v => .ok v
    | none => .error .unwritten

/-- `MemWrite(buf, i, v)` (R31): an index above 253 has no answer. -/
def memWrite (m : Memory) (i : Nat) (v : Byte) : Except BufErr Memory :=
  if Config.rxCap ≤ i then .error .outOfRange else .ok (m.write i v)

/-- `buf[i..i+n)`, read byte by byte. -/
def memRange (m : Memory) : Nat → Nat → Except BufErr Payload
  | _, 0 => .ok []
  | i, n + 1 =>
    match memRead m i with
    | .error e => .error e
    | .ok v =>
      match memRange m (i + 1) n with
      | .error e => .error e
      | .ok d => .ok (v :: d)

/-- `buf[i..i+len(p)) <- p`, in one step (R91). -/
def memFill (m : Memory) : Nat → Payload → Except BufErr Memory
  | _, [] => .ok m
  | i, v :: p =>
    match memWrite m i v with
    | .error e => .error e
    | .ok m' => memFill m' (i + 1) p

/-- The fault of a buffer access that has no answer. -/
def bufFault : BufErr → Fault
  | .outOfRange => .bufferIndex
  | .unwritten => .bufferUnwritten

/-! ### The common tail -/

/-- Where in a frame a byte-consuming operation stands: it matters to the tail only when
`RX_PREV_CARRY` is false (R71). -/
inductive TailAt where
  /-- `RX.SEEK.MISS` -/
  | seeking
  /-- `RX.SEEK.HIT`, `RX.LEN.OK`, `RX.DATA` -/
  | inFrame
  /-- `RX.LEN.OVERSIZE`, `RX.CSUM.OK`, `RX.CSUM.FAIL` -/
  | frameEnd
  deriving DecidableEq, Repr

/-- The last action of every byte-consuming operation (R71), for both values of `RX_PREV_CARRY`. -/
def Rx.tail (carry : Bool) (place : TailAt) (b : Byte) (r : Rx) : Rx :=
  if carry then { r with prev := b, prevValid := true }
  else
    match place with
    | .seeking => { r with prev := b, prevValid := true }
    | .inFrame => r
    | .frameEnd => { r with prevValid := false }

/-- What an RX error changes, complete (R136): back to `SeekingSync`, then the tail. This is the block's
"taking an exception"; nothing is saved and there is no return (R137). -/
def Rx.dropFrame (carry : Bool) (b : Byte) (r : Rx) : Rx :=
  Rx.tail carry .frameEnd b { r with state := .seekingSync }

/-! ### Interface transfers -/

/-- Put one transfer on the trace. -/
def State.observe (o : Obs) (s : State) : State := { s with trace := s.trace ++ [o] }

/-- `raise e` (R134): an event only reports. -/
def State.raise (e : Event) (s : State) : State := s.observe (.raised e)

/-- `deliver(p)` (R7). -/
def State.deliver (p : Payload) (s : State) : State := s.observe (.delivered p)

/-- `out.push(b)` (R32). -/
def State.push (b : Byte) (s : State) : State := s.observe (.pushed b)

/-- The effect of `in.pop()` that gave `b` and left `rest` (R32, R38). -/
def State.popped (b : Byte) (rest : List Byte) (s : State) : State :=
  { s with env := { s.env with rxIn := rest } }.observe (.consumed b)

/-- The request at the head of `tx_req` is consumed, leaving `rest`. -/
def State.requestGone (rest : List Payload) (s : State) : State :=
  { s with env := { s.env with requests := rest } }

/-! ### Moves of the surroundings -/

/-- The source makes bytes available after those already waiting (R32). -/
def State.supply (bs : List Byte) (s : State) : State :=
  { s with env := { s.env with rxIn := s.env.rxIn ++ bs } }

/-- A producer presents a request after those already waiting (R99). -/
def State.present (p : Payload) (s : State) : State :=
  { s with env := { s.env with requests := s.env.requests ++ [p] } }

/-- What is left of the schedule. -/
def State.withAgenda (a : List Moment) (s : State) : State :=
  { s with env := { s.env with agenda := a } }

end Sys2Proof.Machine
end

