-- ==== Sys2Proof/Machine/Operands.lean ====
section
/-! DEFINITION. The operand forms: the byte taken from the input stream (40_deframer.md R71), the position inside a
frame being accumulated (30_encoding.md R55), the request presented at `tx_req` (R56, R91), and the sink's
acceptance of a byte (R90). Each gives the continuation its operand, or stops where the operation has no step. -/
namespace Sys2Proof.Machine

/-- What an operation answers. -/
abbrev Result := Host.Outcome State Fault Refusal

/-- Common guard and first action of every byte-consuming RX operation (R71): a byte is available, it is
`b`, and `rx_out_valid = 0`; the continuation sees the state with the byte consumed. -/
def consuming (b : Byte) (s : State) (k : State → Result) : Result :=
  match s.env.rxIn with
  | [] => .refused .notEnabled
  | c :: rest =>
    if c = b ∧ s.rx.outValid = false then k (s.popped b rest) else .refused .notEnabled

/-- Guard of the operations of `Accumulating`; a cursor beyond the length is a fault (R55). -/
def accumulating (s : State) (k : Result) : Result :=
  if s.rx.state = .accumulating then
    if s.rx.len.toNat < s.rx.cursor.toNat then .fault .rxCursorPastLength else k
  else .refused .notEnabled

/-- Guard of the checksum operations (R77, R78): all data bytes are stored; the continuation gets
`rx_buf[0..rx_len)`. -/
def atChecksum (s : State) (k : Payload → Result) : Result :=
  accumulating s
    (if s.rx.cursor = s.rx.len then
      match memRange s.rx.buf 0 s.rx.len.toNat with
      | .error e => .fault (bufFault e)
      | .ok d => k d
    else .refused .notEnabled)

/-- Guard of the request operations (R91, R92): `Idle`, and a request is presented; the continuation gets
the request and the state with the request consumed. -/
def requested (s : State) (k : Payload → State → Result) : Result :=
  match s.env.requests with
  | [] => .refused .notEnabled
  | p :: rest =>
    if s.tx.state = .idle then k p (s.requestGone rest) else .refused .notEnabled

/-- Guard of the emit operations (R93 to R97): `tx_state` is `st`. That the sink accepts a byte is the
schedule's choice (log 13). -/
def emitting (st : TxState) (s : State) (k : Result) : Result :=
  if s.tx.state = st then k else .refused .notEnabled

/-- The columns R55 reads. -/
def Rx.view (r : Rx) : RxView :=
  { outValid := r.outValid, state := r.state, prevValid := r.prevValid, prev := r.prev,
    len := r.len, cursor := r.cursor, data := memRange r.buf 0 r.len.toNat }

/-- The columns R56 reads. -/
def Tx.view (t : Tx) : TxView := { state := t.state, len := t.len, cursor := t.cursor }

end Sys2Proof.Machine
end

