-- ==== Sys2Proof/Machine/Deframer.lean ====
section
/-! DEFINITION. The deframer operations (spec/40_deframer.md R72 to R79): for each its effect on the RX registers,
with `RX_PREV_CARRY` as an argument, and its meaning. -/
namespace Sys2Proof.Machine

/-- R72: "reset the buffer" writes cursor and length, no byte of `rx_buf`. -/
def Rx.seekHit (carry : Bool) (b : Byte) (r : Rx) : Rx :=
  Rx.tail carry .inFrame b { r with cursor := 0#8, len := 0#8, state := .awaitingLength }

/-- R73. -/
def Rx.seekMiss (carry : Bool) (b : Byte) (r : Rx) : Rx := Rx.tail carry .seeking b r

/-- R74. -/
def Rx.lenOk (carry : Bool) (b : Byte) (r : Rx) : Rx :=
  Rx.tail carry .inFrame b { r with len := b, cursor := 0#8, state := .accumulating }

/-- R75: rejected before any buffer write. -/
def Rx.lenOversize (carry : Bool) (b : Byte) (r : Rx) : Rx := Rx.dropFrame carry b r

/-- R76, with the buffer after the write. -/
def Rx.data (carry : Bool) (b : Byte) (buf : Memory) (r : Rx) : Rx :=
  Rx.tail carry .inFrame b { r with buf := buf, cursor := r.cursor + 1#8 }

/-- R77. -/
def Rx.csumOk (carry : Bool) (b : Byte) (r : Rx) : Rx :=
  Rx.tail carry .frameEnd b { r with outValid := true, state := .seekingSync }

/-- R78. -/
def Rx.csumFail (carry : Bool) (b : Byte) (r : Rx) : Rx := Rx.dropFrame carry b r

/-- R79. -/
def Rx.take (r : Rx) : Rx := { r with outValid := false }

/-- `RX.SEEK.HIT` (R72). -/
def execRxSeekHit (b : Byte) (s : State) : Result :=
  consuming b s fun s =>
    if s.rx.state = .seekingSync ∧ syncHit s.rx.prevValid s.rx.prev b = true then
      .next { s with rx := s.rx.seekHit Config.rxPrevCarry b }
    else .refused .notEnabled

/-- `RX.SEEK.MISS` (R73). -/
def execRxSeekMiss (b : Byte) (s : State) : Result :=
  consuming b s fun s =>
    if s.rx.state = .seekingSync ∧ syncHit s.rx.prevValid s.rx.prev b = false then
      .next { s with rx := s.rx.seekMiss Config.rxPrevCarry b }
    else .refused .notEnabled

/-- `RX.LEN.OK` (R74). -/
def execRxLenOk (b : Byte) (s : State) : Result :=
  consuming b s fun s =>
    if s.rx.state = .awaitingLength ∧ b.toNat ≤ Config.rxCap then
      .next { s with rx := s.rx.lenOk Config.rxPrevCarry b }
    else .refused .notEnabled

/-- `RX.LEN.OVERSIZE` (R75, R132). -/
def execRxLenOversize (b : Byte) (s : State) : Result :=
  consuming b s fun s =>
    if s.rx.state = .awaitingLength ∧ Config.rxCap < b.toNat then
      .next { s.raise (.oversizeLength b) with rx := s.rx.lenOversize Config.rxPrevCarry b }
    else .refused .notEnabled

/-- `RX.DATA` (R76). -/
def execRxData (b : Byte) (s : State) : Result :=
  consuming b s fun s =>
    accumulating s
      (if s.rx.cursor.toNat < s.rx.len.toNat then
        match memWrite s.rx.buf s.rx.cursor.toNat b with
        | .error e => .fault (bufFault e)
        | .ok buf => .next { s with rx := s.rx.data Config.rxPrevCarry b buf }
      else .refused .notEnabled)

/-- `RX.CSUM.OK` (R77). -/
def execRxCsumOk (b : Byte) (s : State) : Result :=
  consuming b s fun s =>
    atChecksum s fun d =>
      if csumOk s.rx.len d b = true then
        .next { s.deliver d with rx := s.rx.csumOk Config.rxPrevCarry b }
      else .refused .notEnabled

/-- `RX.CSUM.FAIL` (R78, R131). -/
def execRxCsumFail (b : Byte) (s : State) : Result :=
  consuming b s fun s =>
    atChecksum s fun d =>
      if csumOk s.rx.len d b = false then
        .next { s.raise (.checksumMismatch b) with rx := s.rx.csumFail Config.rxPrevCarry b }
      else .refused .notEnabled

/-- `RX.TAKE` (R79). -/
def execRxTake (s : State) : Result :=
  if s.rx.outValid = true then .next { s.observe .taken with rx := s.rx.take }
  else .refused .notEnabled

end Sys2Proof.Machine
end

