-- ==== Sys2Proof/Machine/Encoder.lean ====
section
/-! DEFINITION. The frame encoder operations (spec/41_encoder.md R91 to R97). -/
namespace Sys2Proof.Machine

/-- `TX.REQ` (R91): latch the payload, all in this one step. -/
def execTxReq (p : Payload) (s : State) : Result :=
  requested s fun q s =>
    if q = p ∧ p.length ≤ Config.maxLen then
      match memFill s.tx.buf 0 p with
      | .error e => .fault (bufFault e)
      | .ok buf =>
        .next { s.observe (.accepted p) with
                tx := { s.tx with buf := buf, len := BitVec.ofNat 8 p.length, cursor := 0#8, state := .sync0 } }
    else .refused .notEnabled

/-- `TX.REQ.OVERSIZE` (R92, R133): the request is consumed and discarded; no register is written. -/
def execTxReqOversize (n : Byte) (s : State) : Result :=
  requested s fun q s =>
    if q.length = n.toNat ∧ Config.maxLen < n.toNat then .next (s.raise (.txOversize n))
    else .refused .notEnabled

/-- `TX.SYNC0` (R93). -/
def execTxSync0 (s : State) : Result :=
  emitting .sync0 s (.next { s.push Config.sync0 with tx := { s.tx with state := .sync1 } })

/-- `TX.SYNC1` (R94). -/
def execTxSync1 (s : State) : Result :=
  emitting .sync1 s (.next { s.push Config.sync1 with tx := { s.tx with state := .len } })

/-- `TX.LEN` (R95). -/
def execTxLen (s : State) : Result :=
  emitting .len s
    (.next { s.push s.tx.len with
             tx := { s.tx with cursor := 0#8, state := if s.tx.len = 0#8 then .csum else .data } })

/-- `TX.DATA` (R96). -/
def execTxData (s : State) : Result :=
  emitting .data s
    (if s.tx.cursor.toNat < s.tx.len.toNat then
      match memRead s.tx.buf s.tx.cursor.toNat with
      | .error e => .fault (bufFault e)
      | .ok v =>
        .next { s.push v with
                tx := { s.tx with
                        cursor := s.tx.cursor + 1#8,
                        state := if s.tx.cursor + 1#8 = s.tx.len then .csum else .data } }
    else .fault .txCursorPastLength)

/-- `TX.CSUM` (R97). -/
def execTxCsum (s : State) : Result :=
  emitting .csum s
    (match memRange s.tx.buf 0 s.tx.len.toNat with
     | .error e => .fault (bufFault e)
     | .ok d => .next { s.push (csumFor s.tx.len.toNat d) with tx := { s.tx with state := .idle } })

end Sys2Proof.Machine
end

