-- ==== Sys2Proof/Machine/System.lean ====
section
/-! DEFINITION. The operations of neither half: `RESET` (spec/70_reset_and_hazards.md R150, R151) and the wire
format `FRAME` (spec/30_encoding.md R50, R59, R60). -/
namespace Sys2Proof.Machine

/-- The deframer after `RESET`: the registers R150 calls unspecified hold the free values drawn from
number `n` on (log 2), and no byte of the buffer has a value (log 3). -/
def Rx.afterReset (n : Nat) : Rx :=
  { state := .seekingSync, prevValid := false, prev := Config.freeByte n,
    len := Config.freeByte (n + 1), cursor := Config.freeByte (n + 2), buf := [], outValid := false }

/-- The encoder after `RESET`, likewise. -/
def Tx.afterReset (n : Nat) : Tx :=
  { state := .idle, len := Config.freeByte (n + 3), cursor := Config.freeByte (n + 4), buf := [] }

/-- `RESET` (R150): enabled in every state; raises nothing, pushes nothing, consumes nothing. -/
def execReset (s : State) : Result :=
  .next { s.observe .wasReset with
          rx := Rx.afterReset s.freeNext, tx := Tx.afterReset s.freeNext, freeNext := s.freeNext + 5 }

/-- `FRAME` (R50, R60): the bytes `encode(p)` appear on the input stream, as the script line
`rx FRAME[p]` makes them available (R59; log 7). `FRAME[p]` needs `len(p) <= 254`. -/
def execFrame (p : Payload) (s : State) : Result :=
  if p.length ≤ Config.maxLen then .next (s.supply (frameBytes p)) else .refused .notEnabled

end Sys2Proof.Machine
end

