-- ==== Sys2Proof/Machine/Dispatch.lean ====
section
/-! DEFINITION. One arm per operation, each one direct call of its meaning. -/
namespace Sys2Proof.Machine

def exec (i : Instr) (s : State) : Host.Outcome State Fault Refusal :=
  match i with
  | .rxSeekHit b => Sys2Proof.Machine.execRxSeekHit b s
  | .rxSeekMiss b => Sys2Proof.Machine.execRxSeekMiss b s
  | .rxLenOk b => Sys2Proof.Machine.execRxLenOk b s
  | .rxLenOversize b => Sys2Proof.Machine.execRxLenOversize b s
  | .rxData b => Sys2Proof.Machine.execRxData b s
  | .rxCsumOk b => Sys2Proof.Machine.execRxCsumOk b s
  | .rxCsumFail b => Sys2Proof.Machine.execRxCsumFail b s
  | .rxTake => Sys2Proof.Machine.execRxTake s
  | .txReq p => Sys2Proof.Machine.execTxReq p s
  | .txReqOversize n => Sys2Proof.Machine.execTxReqOversize n s
  | .txSync0 => Sys2Proof.Machine.execTxSync0 s
  | .txSync1 => Sys2Proof.Machine.execTxSync1 s
  | .txLen => Sys2Proof.Machine.execTxLen s
  | .txData => Sys2Proof.Machine.execTxData s
  | .txCsum => Sys2Proof.Machine.execTxCsum s
  | .reset => Sys2Proof.Machine.execReset s
  | .frame p => Sys2Proof.Machine.execFrame p s

end Sys2Proof.Machine
end

