-- ==== Sys2Proof/Machine/Fetch.lean ====
section
/-! DEFINITION. From the schedule to the operation a step performs: what is presented at the head of the agenda, what
the selection tables make of it, and who waits (00_scope.md R7, 30_encoding.md R55, R56, 70_reset_and_hazards.md R150). -/
namespace Sys2Proof.Machine

/-- What one step finds at the head of the agenda. -/
inductive Fetched where
  /-- An operation is selected; it runs in this state, the moment being past. -/
  | run (i : Instr) (s : State)
  /-- No operation is enabled, or the surroundings moved alone: this is the next state. -/
  | wait (s : State)
  | fault (f : Fault)
  | refuse (r : Refusal)
  deriving DecidableEq, Repr

/-- What a turn presents to the block; nothing where no byte is available or no request waits. -/
def presented (t : Turn) (s : State) : Option Presented :=
  match t with
  | .rx => s.env.rxIn.head?.map fun b => .rxByte s.rx.view b
  | .take => some (.take s.rx.outValid)
  | .request => s.env.requests.head?.map fun p => .request s.tx.view p
  | .sink => some (.sink s.tx.view)
  | .wire bs => some (.wire bs)
  | .present _ => none

/-- Where what is presented selects no operation: the agent waits (R7, R15, R79, R99), or the state is
one the spec rules out (R55, 93 U7), or the request could not be presented (R26). Wire bytes that are not
one whole good frame are no operation of the table. -/
def unselected (e : DecodeError) (s : State) : Fetched :=
  match e with
  | .payloadPending => .wait s
  | .nothingPending => .wait s
  | .encoderBusy => .wait s
  | .nothingToEmit => .wait s
  | .rxCursorPastLength => .fault .rxCursorPastLength
  | .txCursorPastLength => .fault .txCursorPastLength
  | .unreadableData b => .fault (bufFault b)
  | .requestTooLong => .refuse .requestTooLong
  | .frameTooShort => .wait s
  | .noSyncMarker => .wait s
  | .oversizeLength => .wait s
  | .wrongChecksum => .wait s
  | .trailingBytes => .wait s

/-- One turn in state `s`. Wire bytes of any kind become available (R32, R36); only a whole good frame is
the operation `FRAME`. A presented request waits until a turn of TX looks at it (R99). -/
def fetchTurn (t : Turn) (s : State) : Fetched :=
  match t with
  | .present p =>
    if p.length ≤ Config.maxRequest then .wait (s.present p) else .refuse .requestTooLong
  | .wire bs =>
    match decode (.wire bs) with
    | .ok i => .run i s
    | .error _ => .wait (s.supply bs)
  | t =>
    match presented t s with
    | none => .wait s
    | some w =>
      match decode w with
      | .ok i => .run i s
      | .error e => unselected e s

/-- The head of the agenda. `rst` takes priority over every other operation (R150): the reset happens, and
the turn of that moment comes after it (log 6). With nothing scheduled every agent waits. -/
def fetch (s : State) : Fetched :=
  match s.env.agenda with
  | [] => .wait s
  | m :: ms =>
    if m.rst then .run .reset (s.withAgenda ({ m with rst := false } :: ms))
    else fetchTurn m.turn (s.withAgenda ms)

/-- Arrange `s` so that its next step presents `w` (log 8, log 9). Only what the selection reads is set. -/
def State.arrange (w : Presented) (s : State) : State :=
  match w with
  | .rst => s.withAgenda ({ rst := true, turn := .wire [] } :: s.env.agenda)
  | .wire bs => s.withAgenda ({ rst := false, turn := .wire bs } :: s.env.agenda)
  | .rxByte v b =>
    { s with
      rx := { s.rx with outValid := v.outValid, state := v.state,
                        prevValid := v.prevValid, prev := v.prev },
      env := { s.env with rxIn := b :: s.env.rxIn,
                          agenda := { rst := false, turn := .rx } :: s.env.agenda } }
  | .take _ => s
  | .request _ _ => s
  | .sink _ => s

/-- The turn under which an operation comes up, and whether `rst` is asserted: how the surroundings bring
an enabled operation about. -/
def momentFor (i : Instr) : Moment :=
  match i with
  | .rxSeekHit _ => ⟨false, .rx⟩
  | .rxSeekMiss _ => ⟨false, .rx⟩
  | .rxLenOk _ => ⟨false, .rx⟩
  | .rxLenOversize _ => ⟨false, .rx⟩
  | .rxData _ => ⟨false, .rx⟩
  | .rxCsumOk _ => ⟨false, .rx⟩
  | .rxCsumFail _ => ⟨false, .rx⟩
  | .rxTake => ⟨false, .take⟩
  | .txReq _ => ⟨false, .request⟩
  | .txReqOversize _ => ⟨false, .request⟩
  | .txSync0 => ⟨false, .sink⟩
  | .txSync1 => ⟨false, .sink⟩
  | .txLen => ⟨false, .sink⟩
  | .txData => ⟨false, .sink⟩
  | .txCsum => ⟨false, .sink⟩
  | .reset => ⟨true, .wire []⟩
  | .frame p => ⟨false, .wire (frameBytes p)⟩

end Sys2Proof.Machine
end

