-- ==== Sys2Proof/Machine/Step.lean ====
section
/-! DEFINITION. One step of the machine, and the placing of an opcode-table word where the next step finds it. -/
namespace Sys2Proof.Machine

/-- One atomic step (00_scope.md R6): the operation the head of the agenda selects, or a wait. -/
def step (s : State) : Host.Outcome State Fault Refusal :=
  match fetch s with
  | .run i t => exec i t
  | .wait t => .next t
  | .fault f => .fault f
  | .refuse r => .refused r

/-- The state whose next step runs the operation of an opcode-table word (log 8, log 9). -/
def State.withFetchWord (s : State) (nbits w : Nat) : State := s.arrange (tablePresented nbits w)

end Sys2Proof.Machine
end

