-- ==== Sys2Proof/Machine/Ports.lean ====
section
/-! DEFINITION. What the interfaces carry in a state (10_state.md R16, R25 to R27; 60_exceptions.md R130, R138): the
signals the surroundings see, and the event codes. Only the transfers are the spec's; a level between transfers that
no rule gives is the model's choice (DESIGN CHOICE, log 19). -/
namespace Sys2Proof.Machine

/-- `rx_in_valid`: a byte is available. -/
def State.rxInValid (s : State) : Bool := !s.env.rxIn.isEmpty

/-- `rx_in_ready`: the block consumes only when no payload is pending (R25); high whenever none is, byte or no
byte (log 19). -/
def State.rxInReady (s : State) : Bool := !s.rx.outValid

/-- `rx_out_valid`, the level high while a payload is pending (R138). -/
def State.rxOutValid (s : State) : Bool := s.rx.outValid

/-- `rx_out_len`: something a consumer may rely on only while a payload is pending (R16). -/
def State.rxOutLen (s : State) : Option Byte := if s.rx.outValid then some s.rx.len else none

/-- The consumer's read access to `rx_buf[i]`, `0 <= i < rx_out_len`, while a payload is pending (R27). -/
def State.rxOutRead (s : State) (i : Nat) : Option Byte :=
  if s.rx.outValid = true ∧ i < s.rx.len.toNat then s.rx.buf.read i else none

/-- `tx_req_valid`: a request is presented. -/
def State.txReqValid (s : State) : Bool := !s.env.requests.isEmpty

/-- `tx_req_ready`: low in every state other than `Idle` (R99); high in `Idle`, request or no request
(log 19). -/
def State.txReqReady (s : State) : Bool := s.tx.state == .idle

/-- `tx_out_valid`: the encoder has a byte for the sink. DESIGN CHOICE (log 19): high in every state but `Idle`,
whether or not the sink is ready. -/
def State.txOutValid (s : State) : Bool := s.tx.state != .idle

/-- `tx_out_data`: the byte the next emit operation pushes (R56, last column but one). DESIGN CHOICE (log 19):
that byte is on the port before the transfer, and in `Idle` the port has no value. -/
def State.txOutData (s : State) : Option Byte :=
  match s.tx.state with
  | .idle => none
  | .sync0 => some Config.sync0
  | .sync1 => some Config.sync1
  | .len => some s.tx.len
  | .data => s.tx.buf.read s.tx.cursor.toNat
  | .csum =>
    match memRange s.tx.buf 0 s.tx.len.toNat with
    | .ok d => some (csumFor s.tx.len.toNat d)
    | .error _ => none

/-- `ev_code` (R130); code 0 is never raised. -/
def Event.code : Event → BitVec 2
  | .checksumMismatch _ => 1#2
  | .oversizeLength _ => 2#2
  | .txOversize _ => 3#2

/-- `ev_info` (R130). -/
def Event.info : Event → Byte
  | .checksumMismatch b => b
  | .oversizeLength b => b
  | .txOversize n => n

end Sys2Proof.Machine
end

