-- ==== Sys2Proof/Machine/Stream.lean ====
section
/-! DEFINITION. The whole-stream functions of spec/42_stream_functions.md: `rx_step` (R110), `run`, `decode` and
`events` (R113), gaps (R116), and sequences of operations (R98, R120, R121). The receive functions take `RX_PREV_CARRY` as
their first argument (R71). -/
namespace Sys2Proof.Machine

/-- The output of one byte-consuming operation (R110). -/
inductive RxOut where
  | quiet
  | payload (p : Payload)
  | event (e : Event)
  deriving DecidableEq, Repr

/-- `rx_step(s, b)` (R110): the deframer as a pure function of its state and one byte. No answer while a
payload is pending, and in states the spec rules out. -/
def Rx.stepWith (carry : Bool) (r : Rx) (b : Byte) : Option (Rx × RxOut) :=
  match decode (.rxByte r.view b) with
  | .error _ => none
  | .ok i =>
    match i with
    | .rxSeekHit _ => some (r.seekHit carry b, .quiet)
    | .rxSeekMiss _ => some (r.seekMiss carry b, .quiet)
    | .rxLenOk _ => some (r.lenOk carry b, .quiet)
    | .rxLenOversize _ => some (r.lenOversize carry b, .event (.oversizeLength b))
    | .rxData _ =>
      match memWrite r.buf r.cursor.toNat b with
      | .error _ => none
      | .ok buf => some (r.data carry b buf, .quiet)
    | .rxCsumOk _ =>
      match memRange r.buf 0 r.len.toNat with
      | .error _ => none
      | .ok d => some (r.csumOk carry b, .payload d)
    | .rxCsumFail _ => some (r.csumFail carry b, .event (.checksumMismatch b))
    | .rxTake => none
    | .txReq _ => none
    | .txReqOversize _ => none
    | .txSync0 => none
    | .txSync1 => none
    | .txLen => none
    | .txData => none
    | .txCsum => none
    | .reset => none
    | .frame _ => none

/-- `RX.TAKE` at once if a payload was delivered (R113). -/
def Rx.takeIfPending (r : Rx) : Rx := if r.outValid then r.take else r

/-- `run(s, bs)` (R113): the state after the bytes, and the outputs in order. -/
def Rx.runWith (carry : Bool) : Rx → List Byte → Option (Rx × List RxOut)
  | r, [] => some (r, [])
  | r, b :: bs =>
    match r.stepWith carry b with
    | none => none
    | some (r', o) =>
      match Rx.runWith carry r'.takeIfPending bs with
      | none => none
      | some (r'', os) => some (r'', if o = .quiet then os else o :: os)

/-- The payload of an output, if it is one. -/
def RxOut.payload? : RxOut → Option Payload
  | .quiet => none
  | .payload p => some p
  | .event _ => none

/-- `decode(bs)` (R113): the payloads a deframer in its reset state delivers from a stream. -/
def decodeStream (carry : Bool) (bs : List Byte) : Option (List Payload) :=
  match Rx.runWith carry State.reset.rx bs with
  | none => none
  | some (_, os) => some (os.filterMap RxOut.payload?)

/-- The event of an output, if it is one. -/
def RxOut.event? : RxOut → Option Event
  | .quiet => none
  | .payload _ => none
  | .event e => some e

/-- `events(bs)` (R113): the events a deframer in its reset state raises on a stream. -/
def eventsStream (carry : Bool) (bs : List Byte) : Option (List Event) :=
  match Rx.runWith carry State.reset.rx bs with
  | none => none
  | some (_, os) => some (os.filterMap RxOut.event?)

/-- What an output leaves on the trace. -/
def RxOut.obs : RxOut → List Obs
  | .quiet => []
  | .payload p => [.delivered p]
  | .event e => [.raised e]

/-- A gap consumed after the byte `v` (or after none) completes no sync pair (R116). -/
def gapQuiet : Option Byte → List Byte → Bool
  | _, [] => true
  | v, b :: bs => !(v == some Config.sync0 && b == Config.sync1) && gapQuiet (some b) bs

/-- Perform a list of operations one after another; no step where one of them has none. -/
def execAll : List Instr → State → Result
  | [], s => .next s
  | i :: is, s =>
    match exec i s with
    | .next t => execAll is t
    | .fault f => .fault f
    | .refused r => .refused r

/-- The operations that emit a frame of `n` payload bytes, in order (R98). -/
def emitOps (n : Nat) : List Instr :=
  [.txSync0, .txSync1, .txLen] ++ List.replicate n .txData ++ [.txCsum]

/-- Push bytes in order: the atomic form of the encoder pushes `encode(p)` at once (R98). -/
def State.pushAll (bs : List Byte) (s : State) : State := bs.foldl (fun t b => t.push b) s

end Sys2Proof.Machine
end

