-- ==== Sys2Proof/Machine/Trace.lean ====
section
/-! DEFINITION. The observable sequences of a run, read off the trace (00_scope.md R9): bytes consumed, payloads
delivered, events raised, bytes emitted; and the requests accepted. -/
namespace Sys2Proof.Machine

def Obs.consumed? : Obs → Option Byte
  | .consumed b => some b
  | .delivered _ => none
  | .taken => none
  | .accepted _ => none
  | .raised _ => none
  | .pushed _ => none
  | .wasReset => none

def Obs.delivered? : Obs → Option Payload
  | .consumed _ => none
  | .delivered p => some p
  | .taken => none
  | .accepted _ => none
  | .raised _ => none
  | .pushed _ => none
  | .wasReset => none

def Obs.accepted? : Obs → Option Payload
  | .consumed _ => none
  | .delivered _ => none
  | .taken => none
  | .accepted p => some p
  | .raised _ => none
  | .pushed _ => none
  | .wasReset => none

def Obs.raised? : Obs → Option Event
  | .consumed _ => none
  | .delivered _ => none
  | .taken => none
  | .accepted _ => none
  | .raised e => some e
  | .pushed _ => none
  | .wasReset => none

def Obs.pushed? : Obs → Option Byte
  | .consumed _ => none
  | .delivered _ => none
  | .taken => none
  | .accepted _ => none
  | .raised _ => none
  | .pushed b => some b
  | .wasReset => none

/-- Events of the deframer only (R120). -/
def Event.ofRx : Event → Bool
  | .checksumMismatch _ => true
  | .oversizeLength _ => true
  | .txOversize _ => false

/-- Bytes consumed, in order. -/
def State.consumedBytes (s : State) : List Byte := s.trace.filterMap Obs.consumed?

/-- Payloads delivered, in order. -/
def State.deliveredPayloads (s : State) : List Payload := s.trace.filterMap Obs.delivered?

/-- Requests accepted, in order. -/
def State.acceptedPayloads (s : State) : List Payload := s.trace.filterMap Obs.accepted?

/-- Events raised, in order. -/
def State.raisedEvents (s : State) : List Event := s.trace.filterMap Obs.raised?

/-- Bytes emitted: the output stream. -/
def State.pushedBytes (s : State) : List Byte := s.trace.filterMap Obs.pushed?

end Sys2Proof.Machine
end

