-- ==== Sys2Proof/Safety.lean ====
section
/-! DEFINITION. What counts as a good state and a safe run: the invariants of spec/10_state.md R18, what the trace
says of the frame in progress, and the inputs the surroundings may offer (R26). -/
namespace Sys2Proof.Machine

/-- INV1 (R18). -/
def Inv1 (s : State) : Prop :=
  s.rx.state = .accumulating →
    s.rx.cursor.toNat ≤ s.rx.len.toNat ∧ s.rx.len.toNat ≤ Config.maxLen

/-- INV3 (R18). -/
def Inv3 (s : State) : Prop :=
  s.rx.outValid = true → s.rx.state = .seekingSync ∧ s.rx.len.toNat ≤ Config.maxLen

/-- INV5 (R18): the bytes below the cursor were consumed, in order, right after the sync pair and the
length byte of the frame in progress, and the buffer holds them. -/
def Inv5 (s : State) : Prop :=
  s.rx.state = .accumulating →
    ∃ before d, s.consumedBytes = before ++ [Config.sync0, Config.sync1, s.rx.len] ++ d ∧
      memRange s.rx.buf 0 s.rx.cursor.toNat = .ok d

/-- A deframer that awaits a length byte has just consumed the sync pair. -/
def InvSync (s : State) : Prop :=
  s.rx.state = .awaitingLength →
    ∃ before, s.consumedBytes = before ++ [Config.sync0, Config.sync1]

/-- `rx_prev` is the byte most recently consumed (R11). -/
def InvPrev (s : State) : Prop :=
  s.rx.prevValid = true → s.consumedBytes.getLast? = some s.rx.prev

/-- While a payload is pending, the payload output presents the payload last delivered (R16). -/
def InvPending (s : State) : Prop :=
  s.rx.outValid = true →
    ∃ d, memRange s.rx.buf 0 s.rx.len.toNat = .ok d ∧ s.deliveredPayloads.getLast? = some d

/-- INV6 and INV8 (R18): while a frame is emitted, the latch holds the request last accepted. -/
def Inv8 (s : State) : Prop :=
  s.tx.state ≠ .idle →
    ∃ p, s.acceptedPayloads.getLast? = some p ∧ p.length ≤ Config.maxLen ∧
      s.tx.len.toNat = p.length ∧ memRange s.tx.buf 0 p.length = .ok p

/-- INV7 (R18). -/
def Inv7 (s : State) : Prop := s.tx.state = .data → s.tx.cursor.toNat < s.tx.len.toNat

/-- INV9 (R18). -/
def Inv9 (s : State) : Prop := s.rx.state ≠ .seekingSync → s.rx.prevValid = true

/-- Both buffers have the canonical form, so no byte lies outside 0..253. -/
def InvMemory (s : State) : Prop := s.rx.buf.wf = true ∧ s.tx.buf.wf = true

/-- Every payload delivered stands on the consumed stream as one whole good frame. -/
def InvFramed (s : State) : Prop :=
  ∀ p ∈ s.deliveredPayloads, ∃ before after,
    s.consumedBytes = before ++ frameBytes p ++ after

/-- The invariant of every state reachable from reset. -/
structure Inv (s : State) : Prop where
  inv1 : Inv1 s
  inv3 : Inv3 s
  inv5 : Inv5 s
  sync : InvSync s
  prev : InvPrev s
  pending : InvPending s
  inv7 : Inv7 s
  inv8 : Inv8 s
  inv9 : Inv9 s
  memory : InvMemory s
  framed : InvFramed s

/-- The surroundings present only requests `tx_req` can carry: at most 255 bytes (R26). -/
def Admitted (s : State) : Prop :=
  (∀ p ∈ s.env.requests, p.length ≤ Config.maxRequest) ∧
    ∀ m ∈ s.env.agenda, ∀ p, m.turn = .present p → p.length ≤ Config.maxRequest

/-- The byte an RX operation consumes, if it consumes one. -/
def rxOperand : Instr → Option Byte
  | .rxSeekHit b => some b
  | .rxSeekMiss b => some b
  | .rxLenOk b => some b
  | .rxLenOversize b => some b
  | .rxData b => some b
  | .rxCsumOk b => some b
  | .rxCsumFail b => some b
  | .rxTake => none
  | .txReq _ => none
  | .txReqOversize _ => none
  | .txSync0 => none
  | .txSync1 => none
  | .txLen => none
  | .txData => none
  | .txCsum => none
  | .reset => none
  | .frame _ => none

/-- The operations of TX (R5). -/
def isTx : Instr → Bool
  | .rxSeekHit _ => false
  | .rxSeekMiss _ => false
  | .rxLenOk _ => false
  | .rxLenOversize _ => false
  | .rxData _ => false
  | .rxCsumOk _ => false
  | .rxCsumFail _ => false
  | .rxTake => false
  | .txReq _ => true
  | .txReqOversize _ => true
  | .txSync0 => true
  | .txSync1 => true
  | .txLen => true
  | .txData => true
  | .txCsum => true
  | .reset => false
  | .frame _ => false

/-- The operations of the receive half: those that consume a byte, and the consumer's. -/
def isRx : Instr → Bool
  | .rxTake => true
  | i => (rxOperand i).isSome

/-- Number of sync hits among some operations (R120). -/
def hits (is : List Instr) : Nat :=
  (is.filter fun i => i == .rxSeekHit Config.sync1).length

/-- One if a frame is in progress (R120). -/
def inFlight (s : State) : Nat :=
  match s.rx.state with
  | .seekingSync => 0
  | .awaitingLength => 1
  | .accumulating => 1

/-- Number of deframer events raised (R120). -/
def rxEventCount (s : State) : Nat := (s.raisedEvents.filter Event.ofRx).length

end Sys2Proof.Machine
end

