-- ==== Sys2Proof/Certificates/Slice0/Obligations.lean ====
section
/-! DEFINITION. The statements for the provers. Each docstring says which rule of spec/ it formalises; where a
statement rests on a decision or an inference the spec marks as its own, or on a log entry, it says so. -/
open Sys2Proof Sys2Proof.Machine

/-! ### The deframer's operations -/

/-- RX.SEEK.HIT: in `SeekingSync`, previous byte `0xFF`, the byte `0x55` is consumed, cursor and length become 0, no
byte of the buffer changes, and the state is `AwaitingLength`. That the hit itself becomes the previous byte
is the spec's decision D3 (log 4). -/
def Obligations.SeekHitOpensFrame : Prop :=
  ∀ (s : State) (rest : List Byte),
    s.env.rxIn = 0x55#8 :: rest → s.rx.outValid = false → s.rx.state = .seekingSync →
    s.rx.prevValid = true → s.rx.prev = 0xFF#8 →
    exec (.rxSeekHit 0x55#8) s = .next
      { s with
        rx := { s.rx with cursor := 0#8, len := 0#8, state := .awaitingLength,
                          prev := 0x55#8, prevValid := true },
        env := { s.env with rxIn := rest },
        trace := s.trace ++ [.consumed 0x55#8] }

/-- R73: in `SeekingSync`, a byte that does not complete a sync pair is consumed and becomes the previous
byte; nothing else changes. -/
def Obligations.SeekMissSkipsByte : Prop :=
  ∀ (s : State) (b : Byte) (rest : List Byte),
    s.env.rxIn = b :: rest → s.rx.outValid = false → s.rx.state = .seekingSync →
    (s.rx.prevValid = false ∨ s.rx.prev ≠ 0xFF#8 ∨ b ≠ 0x55#8) →
    exec (.rxSeekMiss b) s = .next
      { s with
        rx := { s.rx with prev := b, prevValid := true },
        env := { s.env with rxIn := rest },
        trace := s.trace ++ [.consumed b] }

/-- RX.LEN.OK: in `AwaitingLength`, a byte of at most 254 becomes the declared length, and accumulation starts
with a zero write cursor.
That the byte becomes the previous byte in this state too is the spec's decision D3 (log 4). -/
def Obligations.LengthByteStartsAccumulation : Prop :=
  ∀ (s : State) (b : Byte) (rest : List Byte),
    s.env.rxIn = b :: rest → s.rx.outValid = false → s.rx.state = .awaitingLength →
    b.toNat ≤ 254 →
    exec (.rxLenOk b) s = .next
      { s with
        rx := { s.rx with len := b, cursor := 0#8, state := .accumulating, prev := b, prevValid := true },
        env := { s.env with rxIn := rest },
        trace := s.trace ++ [.consumed b] }

/-- RX.LEN.OVERSIZE: in `AwaitingLength`, the byte `0xFF` raises the oversize event and the search for sync
goes on; length, cursor and buffer are not written. That the next state is `SeekingSync` is the spec's
decision D2, and that the byte becomes the previous byte its decision D3 (log 4). -/
def Obligations.OversizeLengthIsRejected : Prop :=
  ∀ (s : State) (rest : List Byte),
    s.env.rxIn = 0xFF#8 :: rest → s.rx.outValid = false → s.rx.state = .awaitingLength →
    exec (.rxLenOversize 0xFF#8) s = .next
      { s with
        rx := { s.rx with state := .seekingSync, prev := 0xFF#8, prevValid := true },
        env := { s.env with rxIn := rest },
        trace := s.trace ++ [.consumed 0xFF#8, .raised (.oversizeLength 0xFF#8)] }

/-- RX.DATA: in `Accumulating` with `rx_cursor < rx_len`, the byte is stored at the cursor, whatever its value, and
the cursor advances by one without wrapping; every other byte of the buffer and every other register but
the previous byte is unchanged. The buffer has 254 bytes, so the cursor is below 254 (INV2).
That the byte becomes the previous byte in this state too is the spec's decision D3 (log 4). -/
def Obligations.DataByteIsStoredAtCursor : Prop :=
  ∀ (s : State) (b : Byte) (rest : List Byte),
    s.env.rxIn = b :: rest → s.rx.outValid = false → s.rx.state = .accumulating →
    s.rx.cursor.toNat < s.rx.len.toNat → s.rx.len.toNat ≤ 254 →
    ∃ t, exec (.rxData b) s = .next t ∧
      t = { s with
            rx := { s.rx with buf := t.rx.buf, cursor := t.rx.cursor, prev := b, prevValid := true },
            env := { s.env with rxIn := rest },
            trace := s.trace ++ [.consumed b] } ∧
      t.rx.cursor.toNat = s.rx.cursor.toNat + 1 ∧
      t.rx.buf.read s.rx.cursor.toNat = some b ∧
      ∀ a, a ≠ s.rx.cursor.toNat → t.rx.buf.read a = s.rx.buf.read a

/-- RX.CSUM.OK: all data bytes stored and the test passed: the stored payload is delivered and becomes
pending, and the search for sync goes on; length, cursor and buffer keep their values. That delivery sets
`rx_out_valid` is the spec's decision D7, and that the byte becomes the previous byte its decision D3
(log 4). -/
def Obligations.GoodChecksumDeliversPayload : Prop :=
  ∀ (s : State) (b : Byte) (rest : List Byte) (d : Payload),
    s.env.rxIn = b :: rest → s.rx.outValid = false → s.rx.state = .accumulating →
    s.rx.cursor = s.rx.len → memRange s.rx.buf 0 s.rx.len.toNat = .ok d →
    (s.rx.len.toNat + byteSum d + b.toNat) % 256 = 0 →
    exec (.rxCsumOk b) s = .next
      { s with
        rx := { s.rx with outValid := true, state := .seekingSync, prev := b, prevValid := true },
        env := { s.env with rxIn := rest },
        trace := s.trace ++ [.consumed b, .delivered d] }

/-- RX.CSUM.FAIL: all data bytes stored and the test failed: the event is raised, nothing is delivered, and the
search for sync goes on; length, cursor and buffer are not written.
That the byte becomes the previous byte in this state too is the spec's decision D3 (log 4). -/
def Obligations.BadChecksumDropsPayload : Prop :=
  ∀ (s : State) (b : Byte) (rest : List Byte) (d : Payload),
    s.env.rxIn = b :: rest → s.rx.outValid = false → s.rx.state = .accumulating →
    s.rx.cursor = s.rx.len → memRange s.rx.buf 0 s.rx.len.toNat = .ok d →
    (s.rx.len.toNat + byteSum d + b.toNat) % 256 ≠ 0 →
    exec (.rxCsumFail b) s = .next
      { s with
        rx := { s.rx with state := .seekingSync, prev := b, prevValid := true },
        env := { s.env with rxIn := rest },
        trace := s.trace ++ [.consumed b, .raised (.checksumMismatch b)] }

/-- RX.TAKE: the pending payload is released and nothing else of the machine changes. The flag and its
interlock are the spec's decision D7. -/
def Obligations.TakeReleasesPayload : Prop :=
  ∀ s : State, s.rx.outValid = true →
    exec .rxTake s = .next
      { s with rx := { s.rx with outValid := false }, trace := s.trace ++ [.taken] }

/-- What a byte-consuming operation leaves unchanged: the encoder, the requests, the schedule; every RX
register its rule does not write; and every buffer byte but the one `RX.DATA` stores at the cursor. The
tail that writes `rx_prev` in every state is the spec's decision D3 (log 4). -/
def Obligations.ByteOperationsFrame : Prop :=
  ∀ (i : Instr) (b : Byte) (s t : State), rxOperand i = some b → exec i s = .next t →
    t.tx = s.tx ∧ t.freeNext = s.freeNext ∧
    t.env.requests = s.env.requests ∧ t.env.agenda = s.env.agenda ∧
    s.env.rxIn = b :: t.env.rxIn ∧
    t.rx.prev = b ∧ t.rx.prevValid = true ∧
    (i = .rxSeekHit b ∨ i = .rxLenOk b ∨ t.rx.len = s.rx.len) ∧
    (i = .rxSeekHit b ∨ i = .rxLenOk b ∨ i = .rxData b ∨ t.rx.cursor = s.rx.cursor) ∧
    (i = .rxCsumOk b ∨ t.rx.outValid = s.rx.outValid) ∧
    ((i ≠ .rxSeekMiss b ∧ i ≠ .rxData b) ∨ t.rx.state = s.rx.state) ∧
    ∀ a, ¬(i = .rxData b ∧ a = s.rx.cursor.toNat) → t.rx.buf.read a = s.rx.buf.read a

/-! ### The encoder's operations -/

/-- TX.REQ: in `Idle`, a presented payload of at most 254 bytes is latched whole in one step, cursor 0, length
set, no byte pushed; bytes of the latch beyond the payload are unchanged. That an empty payload is accepted
is the spec's decision D9. -/
def Obligations.RequestIsLatched : Prop :=
  ∀ (s : State) (p : Payload) (rest : List Payload),
    s.env.requests = p :: rest → s.tx.state = .idle → p.length ≤ 254 →
    ∃ t, exec (.txReq p) s = .next t ∧
      t = { s with
            tx := { state := .sync0, len := t.tx.len, cursor := 0#8, buf := t.tx.buf },
            env := { s.env with requests := rest },
            trace := s.trace ++ [.accepted p] } ∧
      t.tx.len.toNat = p.length ∧
      memRange t.tx.buf 0 p.length = .ok p ∧
      ∀ a, p.length ≤ a → t.tx.buf.read a = s.tx.buf.read a

/-- TX.REQ.OVERSIZE: in `Idle`, a request of length 255 raises the event and is discarded; no register or
buffer is written and nothing is pushed. The refusal is the spec's decision D9. -/
def Obligations.OversizeRequestIsDiscarded : Prop :=
  ∀ (s : State) (p : Payload) (rest : List Payload),
    s.env.requests = p :: rest → s.tx.state = .idle → p.length = 255 →
    exec (.txReqOversize 0xFF#8) s = .next
      { s with env := { s.env with requests := rest },
               trace := s.trace ++ [.raised (.txOversize 0xFF#8)] }

/-- R93: in `Sync0` the byte `0xFF` is pushed and the state is `Sync1`; nothing else changes. -/
def Obligations.FirstSyncByteIsPushed : Prop :=
  ∀ s : State, s.tx.state = .sync0 →
    exec .txSync0 s = .next
      { s with tx := { s.tx with state := .sync1 }, trace := s.trace ++ [.pushed 0xFF#8] }

/-- R94: in `Sync1` the byte `0x55` is pushed and the state is `Len`; nothing else changes. -/
def Obligations.SecondSyncByteIsPushed : Prop :=
  ∀ s : State, s.tx.state = .sync1 →
    exec .txSync1 s = .next
      { s with tx := { s.tx with state := .len }, trace := s.trace ++ [.pushed 0x55#8] }

/-- R95: in `Len` the length is pushed and the cursor cleared; an empty payload goes straight to `Csum`; and in
a state with the invariants the length pushed is never 255. -/
def Obligations.LengthBytePushed : Prop :=
  ∀ s : State, s.tx.state = .len →
    exec .txLen s = .next
      { s with tx := { s.tx with cursor := 0#8,
                                 state := if s.tx.len.toNat = 0 then .csum else .data },
               trace := s.trace ++ [.pushed s.tx.len] } ∧
    (Inv s → s.tx.len.toNat ≤ 254)

/-- R96: in `Data` the byte at the cursor is pushed as it is and the cursor advances by one without
wrapping; the state becomes `Csum` when the new cursor equals the length. -/
def Obligations.PayloadBytePushed : Prop :=
  ∀ (s : State) (v : Byte), s.tx.state = .data → s.tx.cursor.toNat < s.tx.len.toNat →
    s.tx.len.toNat ≤ 254 → s.tx.buf.read s.tx.cursor.toNat = some v →
    ∃ t, exec .txData s = .next t ∧
      t = { s with tx := { s.tx with cursor := t.tx.cursor, state := t.tx.state },
                   trace := s.trace ++ [.pushed v] } ∧
      t.tx.cursor.toNat = s.tx.cursor.toNat + 1 ∧
      t.tx.state = if s.tx.cursor.toNat + 1 = s.tx.len.toNat then .csum else .data

/-- R97: in `Csum` the check value of the latched payload is pushed and the encoder is `Idle`; length,
cursor and latch keep their values. -/
def Obligations.ChecksumBytePushed : Prop :=
  ∀ (s : State) (d : Payload), s.tx.state = .csum →
    memRange s.tx.buf 0 s.tx.len.toNat = .ok d →
    ∃ c : Byte, c.toNat = (0x100 - (s.tx.len.toNat + byteSum d) % 256) % 256 ∧
      exec .txCsum s = .next
        { s with tx := { s.tx with state := .idle }, trace := s.trace ++ [.pushed c] }

/-- What a TX operation leaves unchanged: the whole deframer, the input stream, the schedule; every TX
register its rule does not write; and every byte of the latch but those `TX.REQ` stores, indices
`0..len(p)-1`. -/
def Obligations.EncoderOperationsFrame : Prop :=
  ∀ (i : Instr) (s t : State), isTx i = true → exec i s = .next t →
    t.rx = s.rx ∧ t.freeNext = s.freeNext ∧
    t.env.rxIn = s.env.rxIn ∧ t.env.agenda = s.env.agenda ∧
    (t.env.requests = s.env.requests ∨
      ∃ p, s.env.requests = p :: t.env.requests ∧
        (i = .txReq p ∨ ∃ n : Byte, i = .txReqOversize n ∧ n.toNat = p.length)) ∧
    ((∃ p, i = .txReq p) ∨ t.tx.len = s.tx.len) ∧
    ((∃ p, i = .txReq p) ∨ i = .txLen ∨ i = .txData ∨ t.tx.cursor = s.tx.cursor) ∧
    ((∃ n, i = .txReqOversize n) → t.tx = s.tx) ∧
    ∀ a, (∀ p, i = .txReq p → p.length ≤ a) → t.tx.buf.read a = s.tx.buf.read a

/-! ### Reset and the wire format -/

/-- RESET: enabled in every state; the four items the spec gives a value have it, nothing is pushed,
consumed, delivered or raised, and the surroundings keep what they offered (a waiting request, unread
bytes). The values but `SeekingSync` are the spec's decision D15; nothing is said of the unspecified
registers, which hold free values (log 2). -/
def Obligations.ResetFromAnyState : Prop :=
  ∀ s : State, ∃ t, exec .reset s = .next t ∧
    t.rx.state = .seekingSync ∧ t.rx.prevValid = false ∧ t.rx.outValid = false ∧
    t.tx.state = .idle ∧ t.env = s.env ∧ t.trace = s.trace ++ [.wasReset]

/-- FRAME: the wire format. In every state the frame of a payload of at most 254 bytes appears on the input
stream after the bytes already waiting: sync pair, length, payload, check value; nothing else changes.
That making the bytes available is the row's meaning is the model's choice (log 7). -/
def Obligations.FrameAppearsOnInput : Prop :=
  ∀ (s : State) (p : Payload), p.length ≤ 254 →
    ∃ (l c : Byte), l.toNat = p.length ∧ (p.length + byteSum p + c.toNat) % 256 = 0 ∧
      exec (.frame p) s = .next
        { s with env := { s.env with rxIn := s.env.rxIn ++ ([0xFF#8, 0x55#8, l] ++ p ++ [c]) } }

/-! ### Selection and stepping -/

/-- R55: the selection table of RX. With no payload pending each row is selected exactly under its
condition; with a payload pending no byte is consumed and only `RX.TAKE` is selected. -/
def Obligations.ReceiveSelectionTable : Prop :=
  ∀ (v : RxView) (b : Byte),
    (v.outValid = true → decode (.rxByte v b) = .error .payloadPending) ∧
    (decode (.take v.outValid) = .ok .rxTake ↔ v.outValid = true) ∧
    (v.outValid = false →
      (decode (.rxByte v b) = .ok (.rxSeekHit b) ↔
        v.state = .seekingSync ∧ v.prevValid = true ∧ v.prev = 0xFF#8 ∧ b = 0x55#8) ∧
      (decode (.rxByte v b) = .ok (.rxSeekMiss b) ↔
        v.state = .seekingSync ∧ ¬(v.prevValid = true ∧ v.prev = 0xFF#8 ∧ b = 0x55#8)) ∧
      (decode (.rxByte v b) = .ok (.rxLenOk b) ↔ v.state = .awaitingLength ∧ b.toNat ≤ 254) ∧
      (decode (.rxByte v b) = .ok (.rxLenOversize b) ↔ v.state = .awaitingLength ∧ b = 0xFF#8) ∧
      (decode (.rxByte v b) = .ok (.rxData b) ↔
        v.state = .accumulating ∧ v.cursor.toNat < v.len.toNat) ∧
      (decode (.rxByte v b) = .ok (.rxCsumOk b) ↔
        v.state = .accumulating ∧ v.cursor = v.len ∧
          ∃ d, v.data = .ok d ∧ (v.len.toNat + byteSum d + b.toNat) % 256 = 0) ∧
      (decode (.rxByte v b) = .ok (.rxCsumFail b) ↔
        v.state = .accumulating ∧ v.cursor = v.len ∧
          ∃ d, v.data = .ok d ∧ (v.len.toNat + byteSum d + b.toNat) % 256 ≠ 0) ∧
      (v.state = .accumulating → v.len.toNat < v.cursor.toNat →
        decode (.rxByte v b) = .error .rxCursorPastLength) ∧
      ∀ i, decode (.rxByte v b) = .ok i → rxOperand i = some b)

/-- The selection table of TX (30_encoding.md section 4), with what the other cases answer: a request while busy
and a sink in `Idle` select nothing; a request over 255 bytes is refused by name (log 11), and a cursor at or
past the length in `Data` is an error (log 15). -/
def Obligations.TransmitSelectionTable : Prop :=
  ∀ (v : TxView) (p : Payload) (i : Instr),
    (decode (.request v p) = .ok i ↔
      v.state = .idle ∧
        ((p.length ≤ 254 ∧ i = .txReq p) ∨ (p.length = 255 ∧ i = .txReqOversize 0xFF#8))) ∧
    (decode (.sink v) = .ok i ↔
      (v.state = .sync0 ∧ i = .txSync0) ∨ (v.state = .sync1 ∧ i = .txSync1) ∨
      (v.state = .len ∧ i = .txLen) ∨
      (v.state = .data ∧ v.cursor.toNat < v.len.toNat ∧ i = .txData) ∨
      (v.state = .csum ∧ i = .txCsum)) ∧
    (255 < p.length → decode (.request v p) = .error .requestTooLong) ∧
    (p.length ≤ 255 → v.state ≠ .idle → decode (.request v p) = .error .encoderBusy) ∧
    (v.state = .idle → decode (.sink v) = .error .nothingToEmit) ∧
    (v.state = .data → v.len.toNat ≤ v.cursor.toNat → decode (.sink v) = .error .txCursorPastLength)

/-- A step runs the decoded instruction: with `rst` low and something presented that decodes to `i`, the
step is `exec i` after the moment has been taken off the schedule. The schedule, and that a step uses up one
moment of it, are the model's choice (log 5). -/
def Obligations.StepRunsTheSelectedOperation : Prop :=
  ∀ (s : State) (m : Moment) (ms : List Moment) (w : Presented) (i : Instr),
    s.env.agenda = m :: ms → m.rst = false →
    presented m.turn (s.withAgenda ms) = some w → decode w = .ok i →
    step s = exec i (s.withAgenda ms)

/-- Every enabled operation but RESET can be brought about: if `exec i s` answers `t`, the schedule entry for `i`
makes the step answer `t`, with the rest of the schedule behind it. The schedule and its entries are the
model's choice (log 5); RESET is the subject of `ResetTakesPriority`. -/
def Obligations.EnabledOperationsCanBeScheduled : Prop :=
  ∀ (i : Instr) (s t : State) (ms : List Moment), i ≠ .reset → exec i s = .next t →
    step (s.withAgenda (momentFor i :: ms)) = .next (t.withAgenda ms)

/-- `rst` takes priority over every other operation: whatever the moment would have done, the reset happens
first and the turn stays on the schedule (70_reset_and_hazards.md section 1; the rest of the moment is the
model's choice, log 6). -/
def Obligations.ResetTakesPriority : Prop :=
  ∀ (s : State) (turn : Turn) (ms : List Moment),
    s.env.agenda = { rst := true, turn := turn } :: ms →
    step s = exec .reset (s.withAgenda ({ rst := false, turn := turn } :: ms))

/-- An agent with no enabled operation waits, and nothing is lost: only the schedule moves on. Byte
withheld while a payload is pending, no byte available, nothing to take, request while the encoder is busy,
no request, sink ready in `Idle`, nothing scheduled at all. That a wait uses up its moment is the model's
choice (log 5). -/
def Obligations.DisabledAgentsWait : Prop :=
  ∀ (s : State) (ms : List Moment),
    (s.env.agenda = [] → step s = .next s) ∧
    (s.env.agenda = { rst := false, turn := .rx } :: ms →
      (s.env.rxIn = [] ∨ s.rx.outValid = true) → step s = .next (s.withAgenda ms)) ∧
    (s.env.agenda = { rst := false, turn := .take } :: ms →
      s.rx.outValid = false → step s = .next (s.withAgenda ms)) ∧
    (s.env.agenda = { rst := false, turn := .request } :: ms →
      (s.env.requests = [] ∨
        s.tx.state ≠ .idle ∧ ∃ p rest, s.env.requests = p :: rest ∧ p.length ≤ 255) →
      step s = .next (s.withAgenda ms)) ∧
    (s.env.agenda = { rst := false, turn := .sink } :: ms →
      s.tx.state = .idle → step s = .next (s.withAgenda ms))

/-- Wire bytes of any kind, whole good frames or not, become available after those already waiting, and a
presented request of at most 255 bytes waits behind those already presented; nothing else changes. The
schedule's turns for this and the moment they use up are the model's choice (log 5), and so is that a whole
good frame comes as the operation FRAME (log 7) and that the requests wait in the order presented, which R99
leaves to the environment (log 21). -/
def Obligations.SurroundingsOfferInputs : Prop :=
  ∀ (s : State) (ms : List Moment),
    (∀ bs, s.env.agenda = { rst := false, turn := .wire bs } :: ms →
      step s = .next ((s.withAgenda ms).supply bs)) ∧
    (∀ p : Payload, p.length ≤ 255 → s.env.agenda = { rst := false, turn := .present p } :: ms →
      step s = .next ((s.withAgenda ms).present p))

/-- An operation whose guard does not hold has no step: taking with nothing pending; a byte operation while a
payload is pending, on a byte that is not the one available, or outside its row of the RX selection table;
a request operation while the encoder is busy, or on a request that is not the one presented or not of its
length; an emit operation outside its `tx_state`; a frame above 254 bytes. That exec answers the refusal
`notEnabled` there is the model's reading of "no step" (log 10; for the frame log 7). The states the spec rules
out, where the operations of `Accumulating` and TX.DATA fault, are the subject of `RuledOutStatesFault`. -/
def Obligations.NoStepWithoutGuard : Prop :=
  ∀ s : State,
    (s.rx.outValid = false → exec .rxTake s = .refused .notEnabled) ∧
    (∀ i b, rxOperand i = some b → s.rx.outValid = true ∨ s.env.rxIn.head? ≠ some b →
      exec i s = .refused .notEnabled) ∧
    (∀ b : Byte,
      (¬(s.rx.state = .seekingSync ∧ s.rx.prevValid = true ∧ s.rx.prev = 0xFF#8 ∧ b = 0x55#8) →
        exec (.rxSeekHit b) s = .refused .notEnabled) ∧
      (s.rx.state ≠ .seekingSync ∨ (s.rx.prevValid = true ∧ s.rx.prev = 0xFF#8 ∧ b = 0x55#8) →
        exec (.rxSeekMiss b) s = .refused .notEnabled) ∧
      (¬(s.rx.state = .awaitingLength ∧ b.toNat ≤ 254) → exec (.rxLenOk b) s = .refused .notEnabled) ∧
      (¬(s.rx.state = .awaitingLength ∧ b = 0xFF#8) → exec (.rxLenOversize b) s = .refused .notEnabled) ∧
      (s.rx.state ≠ .accumulating ∨ s.rx.cursor = s.rx.len → exec (.rxData b) s = .refused .notEnabled) ∧
      (s.rx.state ≠ .accumulating ∨ s.rx.cursor.toNat < s.rx.len.toNat →
        exec (.rxCsumOk b) s = .refused .notEnabled ∧ exec (.rxCsumFail b) s = .refused .notEnabled) ∧
      ∀ d, s.rx.state = .accumulating → s.rx.cursor = s.rx.len →
        memRange s.rx.buf 0 s.rx.len.toNat = .ok d →
        ((s.rx.len.toNat + byteSum d + b.toNat) % 256 ≠ 0 → exec (.rxCsumOk b) s = .refused .notEnabled) ∧
        ((s.rx.len.toNat + byteSum d + b.toNat) % 256 = 0 → exec (.rxCsumFail b) s = .refused .notEnabled)) ∧
    (∀ p : Payload, s.tx.state ≠ .idle ∨ s.env.requests.head? ≠ some p ∨ 254 < p.length →
      exec (.txReq p) s = .refused .notEnabled) ∧
    (∀ n : Byte, s.tx.state ≠ .idle ∨ (∀ p : Payload, s.env.requests.head? = some p → p.length ≠ n.toNat) ∨
      n.toNat ≤ 254 → exec (.txReqOversize n) s = .refused .notEnabled) ∧
    (s.tx.state ≠ .sync0 → exec .txSync0 s = .refused .notEnabled) ∧
    (s.tx.state ≠ .sync1 → exec .txSync1 s = .refused .notEnabled) ∧
    (s.tx.state ≠ .len → exec .txLen s = .refused .notEnabled) ∧
    (s.tx.state ≠ .data → exec .txData s = .refused .notEnabled) ∧
    (s.tx.state ≠ .csum → exec .txCsum s = .refused .notEnabled) ∧
    ∀ p : Payload, 254 < p.length → exec (.frame p) s = .refused .notEnabled

/-! ### Encodings -/

/-- Decoding the encoding of a well-formed operation gives it back, with every operand at every value its
row admits. -/
def Obligations.DecodeInvertsEncode : Prop :=
  ∀ i : Instr, i.wf = true → decode (encode i) = .ok i

/-- R50: the frame of a payload of at most 254 bytes is two sync bytes of fixed value, one length byte that
counts the payload only, the payload, one checksum byte; 4 to 258 bytes, four more than the payload. -/
def Obligations.OneFrameFormat : Prop :=
  ∀ p : Payload, p.length ≤ 254 →
    (∃ l c : Byte, l.toNat = p.length ∧ frameBytes p = [0xFF#8, 0x55#8, l] ++ p ++ [c]) ∧
    (frameBytes p).length = p.length + 4 ∧ 4 ≤ (frameBytes p).length ∧ (frameBytes p).length ≤ 258

/-- The frame format read back: from `FF 55 L P C` and any bytes after it, exactly the payload and those
bytes; and whatever reads as a frame is the frame of its payload, so the format is injective. -/
def Obligations.FrameFormatReadsBack : Prop :=
  (∀ (p : Payload) (more : List Byte), p.length ≤ 254 →
    decodeFrame (frameBytes p ++ more) = .ok (p, more)) ∧
  ∀ (bs more : List Byte) (p : Payload), decodeFrame bs = .ok (p, more) →
    p.length ≤ 254 ∧ bs = frameBytes p ++ more

/-- Words written out from the spec's own rows and examples decode to the operations they stand for. -/
def Obligations.SpecWordsDecode : Prop :=
  decode (.rxByte seekingArmed 0b01010101#8) = .ok (.rxSeekHit 0x55#8) ∧
  decode (.rxByte awaitingView 0b11111111#8) = .ok (.rxLenOversize 0xFF#8) ∧
  decode (.rxByte awaitingView 0b00000100#8) = .ok (.rxLenOk 4#8) ∧
  decode (.wire [0xFF#8, 0x55#8, 0x01#8, 0x00#8, 0xFF#8]) = .ok (.frame [0x00#8]) ∧
  decode (.wire [0xFF#8, 0x55#8, 0x01#8, 0x00#8, 0xFE#8]) = .error .wrongChecksum

/-- The register patterns of the two state registers: `SeekingSync` 00, `AwaitingLength` 01, `Accumulating` 10;
`Idle` 000, `Sync0` 001, `Sync1` 010, `Len` 011, `Data` 100, `Csum` 101. A pattern is read back as the state it
stands for, and no other pattern is a state: `11` for RX, `110` and `111` for TX. The patterns are the spec's
decision D4. -/
def Obligations.StatePatterns : Prop :=
  (RxState.seekingSync.bits = 0b00#2 ∧ RxState.awaitingLength.bits = 0b01#2 ∧
    RxState.accumulating.bits = 0b10#2) ∧
  (TxState.idle.bits = 0b000#3 ∧ TxState.sync0.bits = 0b001#3 ∧ TxState.sync1.bits = 0b010#3 ∧
    TxState.len.bits = 0b011#3 ∧ TxState.data.bits = 0b100#3 ∧ TxState.csum.bits = 0b101#3) ∧
  (∀ (w : BitVec 2) (st : RxState), RxState.ofBits w = some st ↔ st.bits = w) ∧
  (∀ w : BitVec 2, RxState.ofBits w = none ↔ w = 0b11#2) ∧
  (∀ (w : BitVec 3) (st : TxState), TxState.ofBits w = some st ↔ st.bits = w) ∧
  ∀ w : BitVec 3, TxState.ofBits w = none ↔ w = 0b110#3 ∨ w = 0b111#3

/-- An event raised by a step has code 1, 2 or 3, never 0, and the code and the info byte say which operation
raised it and on which byte or length. The codes are the spec's decision D8. -/
def Obligations.EventCodeTellsTheCause : Prop :=
  ∀ (i : Instr) (s t : State) (e : Event), exec i s = .next t →
    t.raisedEvents = s.raisedEvents ++ [e] →
    e.code ≠ 0#2 ∧
    (e.code = 1#2 ↔ i = .rxCsumFail e.info) ∧
    (e.code = 2#2 ↔ i = .rxLenOversize e.info) ∧
    (e.code = 3#2 ↔ i = .txReqOversize e.info)

/-! ### Buffers -/

/-- R31: the buffer primitives. A write below 254 is read back there and leaves every other byte as it was;
an index above 253 is a fault, in either direction. -/
def Obligations.BufferPrimitives : Prop :=
  ∀ (m : Memory) (i : Nat) (v : Byte),
    (i ≤ 253 → ∃ m', memWrite m i v = .ok m' ∧ memRead m' i = .ok v ∧
      ∀ j, j ≠ i → memRead m' j = memRead m j) ∧
    (253 < i → memWrite m i v = .error .outOfRange ∧ memRead m i = .error .outOfRange ∧
      bufFault .outOfRange = .bufferIndex)

/-- The two streams. A byte operation takes the oldest byte available and removes it, has no step without
one, and does not see the bytes behind it: with other bytes there it does the same. With no byte available
a turn of RX changes nothing. Every operation leaves the output as it was or appends one byte after every
byte pushed before. That exec answers a refusal where there is no step is the model's reading of "no step"
(log 10), and that the turn without a byte uses up its moment is its choice of a schedule (log 5). -/
def Obligations.StreamsAreInOrder : Prop :=
  ∀ (i : Instr) (s : State),
    (∀ b, rxOperand i = some b → s.env.rxIn = [] → exec i s = .refused .notEnabled) ∧
    (∀ ms, s.env.agenda = { rst := false, turn := .rx } :: ms → s.env.rxIn = [] →
      step s = .next (s.withAgenda ms)) ∧
    ∀ t, exec i s = .next t →
      (∀ b, rxOperand i = some b → s.env.rxIn = b :: t.env.rxIn ∧
        ∀ more, exec i { s with env := { s.env with rxIn := b :: more } } =
          .next { t with env := { t.env with rxIn := more } }) ∧
      (t.pushedBytes = s.pushedBytes ∨ ∃ v, t.pushedBytes = s.pushedBytes ++ [v])

/-- The states the spec rules out are faults, not guesses: a cursor beyond the length stops every operation of
`Accumulating` and the step of an RX turn (the schedule: log 5); a TX cursor at or past the length stops
`TX.DATA`; an index above 253 stops `RX.DATA`. The faults are log 15. -/
def Obligations.RuledOutStatesFault : Prop :=
  ∀ (s : State) (b : Byte) (rest : List Byte),
    (s.env.rxIn = b :: rest → s.rx.outValid = false → s.rx.state = .accumulating →
      (s.rx.len.toNat < s.rx.cursor.toNat →
        exec (.rxData b) s = .fault .rxCursorPastLength ∧
        exec (.rxCsumOk b) s = .fault .rxCursorPastLength ∧
        exec (.rxCsumFail b) s = .fault .rxCursorPastLength ∧
        ∀ ms, s.env.agenda = { rst := false, turn := .rx } :: ms →
          step s = .fault .rxCursorPastLength) ∧
      (s.rx.cursor.toNat < s.rx.len.toNat → 253 < s.rx.cursor.toNat →
        exec (.rxData b) s = .fault .bufferIndex)) ∧
    (s.tx.state = .data → s.tx.len.toNat ≤ s.tx.cursor.toNat →
      exec .txData s = .fault .txCursorPastLength)

/-! ### Invariants and whole-machine rules -/

/-- The machine after reset satisfies the invariants of 10_state.md section 4, what the model adds to them
about the trace, and the bound on what the surroundings present. -/
def Obligations.InvariantsHoldAtReset : Prop := Inv State.reset ∧ Admitted State.reset

/-- Every step keeps the invariants, from every state that has them: the cursor bounds, the canonical
buffers, the frame in progress being what was consumed since its sync pair, the previous byte being the byte
last consumed in every state, the pending payload being the one last delivered, the latch holding the request
last accepted, and every delivered payload standing on the consumed stream as one whole good frame. That the
previous byte is the last one consumed also outside `SeekingSync` rests on `RX_PREV_CARRY` being true, the
spec's decision D3 (log 4); the steps are those of the model's schedule (log 5). -/
def Obligations.StepKeepsInvariants : Prop :=
  ∀ s t : State, Inv s → step s = .next t → Inv t

/-- No step stops: from every state that has the invariants, with requests the port can carry, the step
answers a next state, and the next state's inputs are again admitted. So no write ever leaves the buffer
and no error halts the block. The steps are those of the model's schedule, where an agent with nothing
enabled waits (log 5); the bound on requests is the port's (log 11). -/
def Obligations.StepNeverStops : Prop :=
  ∀ s : State, Inv s → Admitted s → ∃ t, step s = .next t ∧ Admitted t

/-- One operation raises at most one event, and which one is fixed by the operation: a mismatch by
RX.CSUM.FAIL with its byte, an oversize length by RX.LEN.OVERSIZE with its byte, an oversize request by
TX.REQ.OVERSIZE with its length; every other operation raises none. -/
def Obligations.AtMostOneEventPerStep : Prop :=
  ∀ (i : Instr) (s t : State), exec i s = .next t →
    (∀ b, i = .rxCsumFail b → t.raisedEvents = s.raisedEvents ++ [.checksumMismatch b]) ∧
    (∀ b, i = .rxLenOversize b → t.raisedEvents = s.raisedEvents ++ [.oversizeLength b]) ∧
    (∀ n, i = .txReqOversize n → t.raisedEvents = s.raisedEvents ++ [.txOversize n]) ∧
    ((∀ b, i ≠ .rxCsumFail b ∧ i ≠ .rxLenOversize b ∧ i ≠ .txReqOversize b) →
      t.raisedEvents = s.raisedEvents)

/-- While a payload is pending, only the consumer's take and a reset touch the deframer: every other
operation leaves all its registers and its buffer, and consumes no input byte. The interlock is the spec's
decision D7. -/
def Obligations.PendingPayloadIsStable : Prop :=
  ∀ (i : Instr) (s t : State), s.rx.outValid = true → exec i s = .next t →
    i ≠ .rxTake → i ≠ .reset →
    t.rx = s.rx ∧ t.consumedBytes = s.consumedBytes

/-- `AwaitingLength` is entered only from `SeekingSync` by a sync hit, and `AwaitingLength` and `Accumulating`
are left only by a byte that is a length, by a checksum byte, or by a reset: no operation resynchronises
inside a frame. -/
def Obligations.NoResynchronisationInsideFrame : Prop :=
  ∀ (i : Instr) (s t : State), exec i s = .next t →
    (t.rx.state = .awaitingLength → s.rx.state ≠ .awaitingLength →
      s.rx.state = .seekingSync ∧ i = .rxSeekHit 0x55#8) ∧
    (s.rx.state = .accumulating → t.rx.state ≠ .accumulating →
      i = .reset ∨ (s.rx.cursor = s.rx.len ∧ ∃ b, i = .rxCsumOk b ∨ i = .rxCsumFail b)) ∧
    (s.rx.state = .awaitingLength → t.rx.state ≠ .awaitingLength →
      i = .reset ∨ ∃ b, i = .rxLenOk b ∨ i = .rxLenOversize b)

/-- RX and TX are independent: an RX operation followed by a TX operation can be performed in the other order,
with the same registers, buffers and inputs and the same sequences of bytes consumed, payloads delivered,
bytes pushed and requests accepted, and the same events of each half; and likewise the other way round. -/
def Obligations.HalvesCommute : Prop :=
  ∀ (i j : Instr) (s t u : State),
    (isRx i = true ∧ isTx j = true ∨ isTx i = true ∧ isRx j = true) →
    exec i s = .next t → exec j t = .next u →
    ∃ t' u', exec j s = .next t' ∧ exec i t' = .next u' ∧
      u'.rx = u.rx ∧ u'.tx = u.tx ∧ u'.env = u.env ∧
      u'.consumedBytes = u.consumedBytes ∧ u'.deliveredPayloads = u.deliveredPayloads ∧
      u'.pushedBytes = u.pushedBytes ∧ u'.acceptedPayloads = u.acceptedPayloads ∧
      u'.raisedEvents.filter Event.ofRx = u.raisedEvents.filter Event.ofRx ∧
      u'.raisedEvents.filter (fun e => !e.ofRx) = u.raisedEvents.filter (fun e => !e.ofRx)

/-- While a payload is pending, the read port presents exactly the payload last delivered: its length, each
of its bytes, and nothing beyond; with nothing pending it presents nothing. The port is the spec's decision
D7. -/
def Obligations.ReadPortPresentsDelivery : Prop :=
  ∀ s : State, Inv s →
    (s.rx.outValid = true → ∃ d, s.deliveredPayloads.getLast? = some d ∧
      s.rxOutLen = some (BitVec.ofNat 8 d.length) ∧ ∀ i, s.rxOutRead i = d[i]?) ∧
    (s.rx.outValid = false → s.rxOutLen = none ∧ ∀ i, s.rxOutRead i = none)

/-- The byte an emit operation pushes is the one the `tx_out` port shows in the state before it (last column
but one of the TX selection table), and no other operation pushes anything. That the port shows the byte
before the transfer is the model's choice (log 19). -/
def Obligations.PushedByteIsOnPort : Prop :=
  ∀ (i : Instr) (s t : State), exec i s = .next t →
    (i ∈ [Instr.txSync0, .txSync1, .txLen, .txData, .txCsum] →
      ∃ v, s.txOutData = some v ∧ t.pushedBytes = s.pushedBytes ++ [v]) ∧
    (i ∉ [Instr.txSync0, .txSync1, .txLen, .txData, .txCsum] → t.pushedBytes = s.pushedBytes)

/-! ### Checksums -/

/-- R111: the check value by its formula, and that length, data and check value sum to 0 modulo 256. -/
def Obligations.ChecksumLaw : Prop :=
  ∀ p : Payload, (csum p).toNat = (0x100 - (p.length + byteSum p) % 256) % 256 ∧
    (p.length + byteSum p + (csum p).toNat) % 256 = 0

/-- For a given length byte and data exactly one byte passes the test. The spec marks the rule as its own
inference (42_stream_functions.md section 2). -/
def Obligations.ExactlyOneChecksumPasses : Prop :=
  ∀ (len c : Byte) (d : Payload), csumOk len d c = true ↔ c = csumFor len.toNat d

/-- A change of exactly one byte among data and check value, length byte unchanged, never passes the test.
The spec marks the rule as its own inference (42_stream_functions.md section 2). -/
def Obligations.SingleByteErrorIsDetected : Prop :=
  ∀ (len c c' : Byte) (d e : Payload) (x y : Byte), csumOk len (d ++ [x] ++ e) c = true →
    (x ≠ y → csumOk len (d ++ [y] ++ e) c = false) ∧
    (c ≠ c' → csumOk len (d ++ [x] ++ e) c' = false)

/-! ### Whole streams -/

/-- The machine's receive operations are the pure function `rx_step`: whatever `rx_step` answers for the next
input byte, the selected operation does, with the output on the trace; and whatever a byte-consuming
operation does, `rx_step` answers. Both with `RX_PREV_CARRY` true, the spec's decision D3 (log 4). -/
def Obligations.MachineRefinesReceiveFunction : Prop :=
  ∀ (s : State) (b : Byte) (rest : List Byte), s.env.rxIn = b :: rest →
    (∀ r o, s.rx.stepWith true b = some (r, o) →
      ∃ i, decode (.rxByte s.rx.view b) = .ok i ∧
        exec i s = .next
          { s with rx := r, env := { s.env with rxIn := rest },
                   trace := s.trace ++ [.consumed b] ++ o.obs }) ∧
    ∀ i t, rxOperand i = some b → exec i s = .next t →
      ∃ o, s.rx.stepWith true b = some (t.rx, o) ∧ t.trace = s.trace ++ [.consumed b] ++ o.obs

/-- Round trip, for both values of `RX_PREV_CARRY`: from every deframer that seeks sync with nothing pending,
whatever its previous byte, the frame of a payload of at most 254 bytes gives exactly that payload, no
event, and seeks sync again; with `RX_PREV_CARRY` the previous byte is then the check value. The spec marks
the exact form as its own inference (42_stream_functions.md section 3). -/
def Obligations.StreamRoundTrip : Prop :=
  ∀ (carry : Bool) (r : Rx) (p : Payload),
    r.state = .seekingSync → r.outValid = false → p.length ≤ 254 →
    ∃ r', Rx.runWith carry r (frameBytes p) = some (r', [.payload p]) ∧
      r'.state = .seekingSync ∧ r'.outValid = false ∧
      (carry = true → r'.prevValid = true ∧ r'.prev = csum p)

/-- Frames with quiet gaps between them: if no gap completes a sync pair with what was consumed before it,
the stream `g0 frame(p1) g1 … frame(pn) gn` gives exactly the payloads, in order, and no event. The
concatenation law, with `RX_PREV_CARRY` true, which the spec marks as its own inference
(42_stream_functions.md section 3; log 4). -/
def Obligations.FramesWithQuietGapsDecode : Prop :=
  ∀ (g0 : List Byte) (fs : List (Payload × List Byte)),
    gapQuiet none g0 = true →
    (∀ f ∈ fs, f.1.length ≤ 254 ∧ gapQuiet (some (csum f.1)) f.2 = true) →
    ∃ r, Rx.runWith true State.reset.rx (g0 ++ fs.flatMap fun f => frameBytes f.1 ++ f.2) =
      some (r, fs.map fun f => .payload f.1)

/-- Resynchronisation: a frame whose sync and length bytes are intact and whose data or check value fail the
test, followed by a good frame, gives one mismatch event and exactly the good payload. The precondition is
the spec's (90_conflicts.md C3), the exact form its own inference. -/
def Obligations.ResynchronisesAfterBadFrame : Prop :=
  ∀ (carry : Bool) (r : Rx) (d q : Payload) (c : Byte),
    r.state = .seekingSync → r.outValid = false → d.length ≤ 254 → q.length ≤ 254 →
    csumOk (BitVec.ofNat 8 d.length) d c = false →
    ∃ r', Rx.runWith carry r
        ([0xFF#8, 0x55#8, BitVec.ofNat 8 d.length] ++ d ++ [c] ++ frameBytes q) =
      some (r', [.event (.checksumMismatch c), .payload q])

/-- What a cut or mis-sized frame swallows: with `k` data bytes outstanding the next `k + 1` bytes are
consumed as data and check value whatever they are, giving exactly one output, with its check byte last,
and only then does the search for sync go on. The spec marks the rule as its own inference
(42_stream_functions.md section 4). -/
def Obligations.OutstandingBytesAreSwallowed : Prop :=
  ∀ (carry : Bool) (r : Rx) (d bs : List Byte) (c : Byte),
    r.state = .accumulating → r.outValid = false →
    r.len.toNat ≤ 254 → r.cursor.toNat + bs.length = r.len.toNat →
    memRange r.buf 0 r.cursor.toNat = .ok d →
    ∃ r', Rx.runWith carry r (bs ++ [c]) =
        some (r', [if csumOk r.len (d ++ bs) c then .payload (d ++ bs)
                   else .event (.checksumMismatch c)]) ∧
      r'.state = .seekingSync ∧ r'.outValid = false

/-- The counting law: over any operations without a reset, sync hits plus frames in progress before equal
payloads delivered plus deframer events raised plus frames in progress after. Started from reset this is
the law of 42_stream_functions.md section 5, which the spec marks as its own inference. -/
def Obligations.EverySyncHitIsAccountedFor : Prop :=
  ∀ (is : List Instr) (s t : State), Instr.reset ∉ is → execAll is s = .next t →
    hits is + inFlight s + s.deliveredPayloads.length + rxEventCount s =
      t.deliveredPayloads.length + rxEventCount t + inFlight t

/-- One request, one frame: from `Idle`, accepting `p` and then emitting performs exactly the emit operations
of a frame of `len(p)` bytes and pushes exactly the bytes of the frame, which is the atomic form of the
encoder; the encoder is then `Idle` again and the deframer untouched. The spec marks the rule as its own
inference (41_encoder.md section 4). -/
def Obligations.OneRequestOneFrame : Prop :=
  ∀ (s : State) (p : Payload) (rest : List Payload),
    s.env.requests = p :: rest → s.tx.state = .idle → p.length ≤ 254 →
    ∃ t, execAll (.txReq p :: emitOps p.length) s = .next t ∧
      t.tx.state = .idle ∧ t.rx = s.rx ∧
      t.env = { s.env with requests := rest } ∧
      t.trace = ((s.observe (.accepted p)).pushAll (frameBytes p)).trace

/-- The output stream is made of whole frames: over any operations without a reset, started in `Idle`, what is
pushed is the concatenation of the frames of the requests accepted, in order, the last one cut to the bytes
already emitted while it is in progress. The spec marks the rule as its own inference
(42_stream_functions.md section 5). -/
def Obligations.OutputIsFramesOfRequests : Prop :=
  ∀ (is : List Instr) (s t : State), Instr.reset ∉ is → s.tx.state = .idle →
    execAll is s = .next t →
    ∃ ps, t.acceptedPayloads = s.acceptedPayloads ++ ps ∧
      ((t.tx.state = .idle ∧ t.pushedBytes = s.pushedBytes ++ ps.flatMap frameBytes) ∨
       (t.tx.state ≠ .idle ∧ ∃ done p k, ps = done ++ [p] ∧ k < (frameBytes p).length ∧
          t.pushedBytes = s.pushedBytes ++ done.flatMap frameBytes ++ (frameBytes p).take k))
end

