-- ==== Sys2Proof/Laws/Memory.lean ====
section
/-! SUPPORT. The laws of the buffers (spec/20_memory.md R31): a read after a write, the other bytes, the canonical
form, and ranges. -/
namespace Sys2Proof.Machine

theorem Memory.read_write_same (m : Memory) (i : Nat) (v : Byte) : (m.write i v).read i = some v := by
  induction m with
  | nil => simp [Memory.write, Memory.read]
  | cons c m ih =>
    obtain ⟨a, w⟩ := c
    unfold Memory.write
    split
    · simp [Memory.read]
    · split
      · simp [Memory.read]
      · rename_i h1 h2
        simp [Memory.read, h2, ih]

theorem Memory.read_write_other (m : Memory) {i j : Nat} (v : Byte) (h : j ≠ i) :
    (m.write i v).read j = m.read j := by
  induction m with
  | nil => simp [Memory.write, Memory.read, h]
  | cons c m ih =>
    obtain ⟨a, w⟩ := c
    unfold Memory.write
    split
    · simp [Memory.read, h]
    · split
      · rename_i h1 h2
        subst h2
        simp [Memory.read, h]
      · simp only [Memory.read, ih]

theorem Memory.wfFrom_write (m : Memory) {lo i : Nat} (v : Byte) (hm : m.wfFrom lo = true) (hlo : lo ≤ i)
    (hi : i < Config.rxCap) : (m.write i v).wfFrom lo = true := by
  induction m generalizing lo with
  | nil => simp [Memory.write, Memory.wfFrom, hlo, hi]
  | cons c m ih =>
    obtain ⟨a, w⟩ := c
    simp only [Memory.wfFrom, Bool.and_eq_true, decide_eq_true_eq] at hm
    obtain ⟨⟨h1, h2⟩, h3⟩ := hm
    unfold Memory.write
    split
    · rename_i h
      simp only [Memory.wfFrom, Bool.and_eq_true, decide_eq_true_eq]
      exact ⟨⟨hlo, hi⟩, ⟨h, h2⟩, h3⟩
    · split
      · rename_i h
        subst h
        simp only [Memory.wfFrom, Bool.and_eq_true, decide_eq_true_eq]
        exact ⟨⟨hlo, hi⟩, h3⟩
      · rename_i h h'
        simp only [Memory.wfFrom, Bool.and_eq_true, decide_eq_true_eq]
        exact ⟨⟨h1, h2⟩, ih h3 (by omega)⟩

/-- Writing keeps the canonical form. -/
theorem Memory.wf_write {m : Memory} {i : Nat} (v : Byte) (hm : m.wf = true) (hi : i < Config.rxCap) :
    (m.write i v).wf = true := Memory.wfFrom_write m v hm (Nat.zero_le i) hi

/-- The buffers after reset have the canonical form. -/
theorem Memory.reset_wf : State.reset.rx.buf.wf = true ∧ State.reset.tx.buf.wf = true := by decide

/-- What a `MemWrite` that answers has done. -/
theorem memWrite_ok {m m' : Memory} {i : Nat} {v : Byte} (h : memWrite m i v = .ok m') :
    i < Config.rxCap ∧ m' = m.write i v := by
  unfold memWrite at h
  split at h
  · cases h
  · cases h
    exact ⟨by omega, rfl⟩

theorem memWrite_of_lt {m : Memory} {i : Nat} (v : Byte) (h : i < Config.rxCap) :
    memWrite m i v = .ok (m.write i v) := by
  simp [memWrite, Nat.not_le.mpr h]

/-- What a `MemRead` that answers has found. -/
theorem memRead_ok {m : Memory} {i : Nat} {v : Byte} :
    memRead m i = .ok v ↔ i < Config.rxCap ∧ m.read i = some v := by
  unfold memRead
  split
  · rename_i h
    simp [Nat.not_lt.mpr h]
  · rename_i h
    cases hr : m.read i <;> simp [Nat.not_le.mp h]

/-- A `MemWrite` keeps the canonical form. -/
theorem memWrite_wf {m m' : Memory} {i : Nat} {v : Byte} (hm : m.wf = true)
    (h : memWrite m i v = .ok m') : m'.wf = true := by
  obtain ⟨hi, rfl⟩ := memWrite_ok h
  exact Memory.wf_write v hm hi

/-- A range read that answers: its length, and each of its bytes. -/
theorem memRange_ok {m : Memory} {n : Nat} : ∀ {i : Nat} {d : Payload},
    memRange m i n = .ok d ↔ d.length = n ∧ ∀ k, k < n → ∃ v, d[k]? = some v ∧ memRead m (i + k) = .ok v := by
  induction n with
  | zero =>
    intro i d
    constructor
    · intro h
      cases h
      exact ⟨rfl, fun k hk => absurd hk (Nat.not_lt_zero k)⟩
    · rintro ⟨h, -⟩
      simp [memRange, List.length_eq_zero_iff.mp h]
  | succ n ih =>
    intro i d
    unfold memRange
    cases hv : memRead m i with
    | error e =>
      simp only [reduceCtorEq, false_iff, not_and, not_forall]
      intro _
      exact ⟨0, Nat.succ_pos n, by simp [hv]⟩
    | ok v =>
      cases hd : memRange m (i + 1) n with
      | error e =>
        simp only [reduceCtorEq, false_iff, not_and]
        intro hl hall
        cases d with
        | nil => simp at hl
        | cons w d =>
          have hgood : memRange m (i + 1) n = .ok d := ih.mpr ⟨by simpa using hl, fun k hk => by
            obtain ⟨u, hu1, hu2⟩ := hall (k + 1) (by omega)
            exact ⟨u, by simpa using hu1, by rw [← hu2]; congr 1; omega⟩⟩
          rw [hd] at hgood
          cases hgood
      | ok d' =>
        obtain ⟨hl', hall'⟩ := ih.mp hd
        constructor
        · intro h
          cases h
          refine ⟨by simp [hl'], fun k hk => ?_⟩
          cases k with
          | zero => exact ⟨v, rfl, hv⟩
          | succ k =>
            obtain ⟨u, hu1, hu2⟩ := hall' k (by omega)
            exact ⟨u, by simpa using hu1, by rw [← hu2]; congr 1; omega⟩
        · rintro ⟨hl, hall⟩
          have hext : d = v :: d' := by
            apply List.ext_getElem?
            intro k
            by_cases hk : k < n + 1
            · cases k with
              | zero =>
                obtain ⟨u, hu1, hu2⟩ := hall 0 hk
                rw [Nat.add_zero, hv] at hu2
                cases hu2
                simpa using hu1
              | succ k =>
                obtain ⟨u, hu1, hu2⟩ := hall (k + 1) hk
                obtain ⟨w, hw1, hw2⟩ := hall' k (by omega)
                rw [show i + (k + 1) = i + 1 + k by omega, hw2] at hu2
                cases hu2
                rw [hu1]
                simpa using hw1.symm
            · rw [List.getElem?_eq_none (by omega), List.getElem?_eq_none (by simp [hl']; omega)]
          rw [hext]

theorem memRange_length {m : Memory} {i n : Nat} {d : Payload} (h : memRange m i n = .ok d) :
    d.length = n := (memRange_ok.mp h).1

/-- A range reads the same in two buffers that agree on it. -/
theorem memRange_congr {m m' : Memory} {i n : Nat}
    (h : ∀ a, i ≤ a → a < i + n → m.read a = m'.read a) : memRange m i n = memRange m' i n := by
  induction n generalizing i with
  | zero => rfl
  | succ n ih =>
    have h0 : memRead m i = memRead m' i := by
      unfold memRead
      rw [h i (Nat.le_refl i) (by omega)]
    simp only [memRange, h0, ih (i := i + 1) fun a h1 h2 => h a (by omega) (by omega)]

/-- Splitting off the last byte of a range. -/
theorem memRange_snoc {m : Memory} {n : Nat} {d : Payload} {v : Byte}
    (hd : memRange m 0 n = .ok d) (hv : memRead m n = .ok v) : memRange m 0 (n + 1) = .ok (d ++ [v]) := by
  obtain ⟨hl, hall⟩ := memRange_ok.mp hd
  refine memRange_ok.mpr ⟨by simp [hl], fun k hk => ?_⟩
  by_cases hkn : k < n
  · obtain ⟨u, hu1, hu2⟩ := hall k hkn
    exact ⟨u, by rw [List.getElem?_append_left (by omega)]; exact hu1, hu2⟩
  · have : k = n := by omega
    subst this
    exact ⟨v, by rw [List.getElem?_append_right (by omega)]; simp [hl], by simpa using hv⟩

/-- Storing the next byte of a frame extends the range below the cursor (R76). -/
theorem memRange_write_next {m : Memory} {n : Nat} {d : Payload} (v : Byte)
    (hd : memRange m 0 n = .ok d) (hn : n < Config.rxCap) :
    memRange (m.write n v) 0 (n + 1) = .ok (d ++ [v]) := by
  refine memRange_snoc ?_ (memRead_ok.mpr ⟨hn, Memory.read_write_same m n v⟩)
  rw [← hd]
  exact memRange_congr fun a _ h2 => Memory.read_write_other m v (by omega)

/-- Latching a payload (R91): it is read back whole, and the bytes outside it are as before. -/
theorem memFill_spec {p : Payload} : ∀ {m : Memory} {i : Nat}, i + p.length ≤ Config.rxCap →
    ∃ m', memFill m i p = .ok m' ∧ memRange m' i p.length = .ok p ∧
      (∀ a, a < i ∨ i + p.length ≤ a → m'.read a = m.read a) ∧ (m.wf = true → m'.wf = true) := by
  induction p with
  | nil =>
    intro m i _
    exact ⟨m, rfl, rfl, fun _ _ => rfl, id⟩
  | cons v p ih =>
    intro m i h
    rw [List.length_cons] at h
    obtain ⟨m', h1, h2, h3, h4⟩ := ih (m := m.write i v) (i := i + 1) (by omega)
    have hi : i < Config.rxCap := by omega
    refine ⟨m', ?_, ?_, fun a ha => ?_, fun hm => h4 (Memory.wf_write v hm hi)⟩
    · simp only [memFill, memWrite_of_lt v hi, h1]
    · have hv : memRead m' i = .ok v :=
        memRead_ok.mpr ⟨hi, by rw [h3 i (Or.inl (Nat.lt_succ_self i)), Memory.read_write_same]⟩
      simp only [List.length_cons, memRange, hv, h2]
    · rw [List.length_cons] at ha
      rw [h3 a (by omega), Memory.read_write_other m v (by omega)]

end Sys2Proof.Machine
end

