-- ==== Sys2Proof/Laws/State.lean ====
section
/-! SUPPORT. One lemma per field per update, so that no proof unfolds a record update. -/
namespace Sys2Proof.Machine

/-! ### `observe` and the transfers written with it -/

@[simp] theorem State.observe_rx (o : Obs) (s : State) : (s.observe o).rx = s.rx := rfl
@[simp] theorem State.observe_tx (o : Obs) (s : State) : (s.observe o).tx = s.tx := rfl
@[simp] theorem State.observe_env (o : Obs) (s : State) : (s.observe o).env = s.env := rfl
@[simp] theorem State.observe_trace (o : Obs) (s : State) : (s.observe o).trace = s.trace ++ [o] := rfl
@[simp] theorem State.observe_freeNext (o : Obs) (s : State) : (s.observe o).freeNext = s.freeNext := rfl

@[simp] theorem State.raise_rx (e : Event) (s : State) : (s.raise e).rx = s.rx := rfl
@[simp] theorem State.raise_tx (e : Event) (s : State) : (s.raise e).tx = s.tx := rfl
@[simp] theorem State.raise_env (e : Event) (s : State) : (s.raise e).env = s.env := rfl
@[simp] theorem State.raise_trace (e : Event) (s : State) : (s.raise e).trace = s.trace ++ [.raised e] := rfl
@[simp] theorem State.raise_freeNext (e : Event) (s : State) : (s.raise e).freeNext = s.freeNext := rfl

@[simp] theorem State.deliver_rx (p : Payload) (s : State) : (s.deliver p).rx = s.rx := rfl
@[simp] theorem State.deliver_tx (p : Payload) (s : State) : (s.deliver p).tx = s.tx := rfl
@[simp] theorem State.deliver_env (p : Payload) (s : State) : (s.deliver p).env = s.env := rfl
@[simp] theorem State.deliver_trace (p : Payload) (s : State) :
    (s.deliver p).trace = s.trace ++ [.delivered p] := rfl
@[simp] theorem State.deliver_freeNext (p : Payload) (s : State) : (s.deliver p).freeNext = s.freeNext := rfl

@[simp] theorem State.push_rx (b : Byte) (s : State) : (s.push b).rx = s.rx := rfl
@[simp] theorem State.push_tx (b : Byte) (s : State) : (s.push b).tx = s.tx := rfl
@[simp] theorem State.push_env (b : Byte) (s : State) : (s.push b).env = s.env := rfl
@[simp] theorem State.push_trace (b : Byte) (s : State) : (s.push b).trace = s.trace ++ [.pushed b] := rfl
@[simp] theorem State.push_freeNext (b : Byte) (s : State) : (s.push b).freeNext = s.freeNext := rfl

/-! ### Inputs consumed and offered -/

@[simp] theorem State.popped_rx (b : Byte) (r : List Byte) (s : State) : (s.popped b r).rx = s.rx := rfl
@[simp] theorem State.popped_tx (b : Byte) (r : List Byte) (s : State) : (s.popped b r).tx = s.tx := rfl
@[simp] theorem State.popped_env (b : Byte) (r : List Byte) (s : State) :
    (s.popped b r).env = { s.env with rxIn := r } := rfl
@[simp] theorem State.popped_trace (b : Byte) (r : List Byte) (s : State) :
    (s.popped b r).trace = s.trace ++ [.consumed b] := rfl
@[simp] theorem State.popped_freeNext (b : Byte) (r : List Byte) (s : State) :
    (s.popped b r).freeNext = s.freeNext := rfl

@[simp] theorem State.requestGone_rx (r : List Payload) (s : State) : (s.requestGone r).rx = s.rx := rfl
@[simp] theorem State.requestGone_tx (r : List Payload) (s : State) : (s.requestGone r).tx = s.tx := rfl
@[simp] theorem State.requestGone_env (r : List Payload) (s : State) :
    (s.requestGone r).env = { s.env with requests := r } := rfl
@[simp] theorem State.requestGone_trace (r : List Payload) (s : State) :
    (s.requestGone r).trace = s.trace := rfl
@[simp] theorem State.requestGone_freeNext (r : List Payload) (s : State) :
    (s.requestGone r).freeNext = s.freeNext := rfl

@[simp] theorem State.supply_rx (bs : List Byte) (s : State) : (s.supply bs).rx = s.rx := rfl
@[simp] theorem State.supply_tx (bs : List Byte) (s : State) : (s.supply bs).tx = s.tx := rfl
@[simp] theorem State.supply_env (bs : List Byte) (s : State) :
    (s.supply bs).env = { s.env with rxIn := s.env.rxIn ++ bs } := rfl
@[simp] theorem State.supply_trace (bs : List Byte) (s : State) : (s.supply bs).trace = s.trace := rfl
@[simp] theorem State.supply_freeNext (bs : List Byte) (s : State) :
    (s.supply bs).freeNext = s.freeNext := rfl

@[simp] theorem State.present_rx (p : Payload) (s : State) : (s.present p).rx = s.rx := rfl
@[simp] theorem State.present_tx (p : Payload) (s : State) : (s.present p).tx = s.tx := rfl
@[simp] theorem State.present_env (p : Payload) (s : State) :
    (s.present p).env = { s.env with requests := s.env.requests ++ [p] } := rfl
@[simp] theorem State.present_trace (p : Payload) (s : State) : (s.present p).trace = s.trace := rfl
@[simp] theorem State.present_freeNext (p : Payload) (s : State) :
    (s.present p).freeNext = s.freeNext := rfl

@[simp] theorem State.withAgenda_rx (a : List Moment) (s : State) : (s.withAgenda a).rx = s.rx := rfl
@[simp] theorem State.withAgenda_tx (a : List Moment) (s : State) : (s.withAgenda a).tx = s.tx := rfl
@[simp] theorem State.withAgenda_env (a : List Moment) (s : State) :
    (s.withAgenda a).env = { s.env with agenda := a } := rfl
@[simp] theorem State.withAgenda_trace (a : List Moment) (s : State) :
    (s.withAgenda a).trace = s.trace := rfl
@[simp] theorem State.withAgenda_freeNext (a : List Moment) (s : State) :
    (s.withAgenda a).freeNext = s.freeNext := rfl

/-! ### The observable sequences, one transfer at a time -/

@[simp] theorem State.observe_consumedBytes (o : Obs) (s : State) :
    (s.observe o).consumedBytes = s.consumedBytes ++ o.consumed?.toList := by
  cases h : o.consumed? <;> simp [State.consumedBytes, h]
@[simp] theorem State.observe_deliveredPayloads (o : Obs) (s : State) :
    (s.observe o).deliveredPayloads = s.deliveredPayloads ++ o.delivered?.toList := by
  cases h : o.delivered? <;> simp [State.deliveredPayloads, h]
@[simp] theorem State.observe_acceptedPayloads (o : Obs) (s : State) :
    (s.observe o).acceptedPayloads = s.acceptedPayloads ++ o.accepted?.toList := by
  cases h : o.accepted? <;> simp [State.acceptedPayloads, h]
@[simp] theorem State.observe_raisedEvents (o : Obs) (s : State) :
    (s.observe o).raisedEvents = s.raisedEvents ++ o.raised?.toList := by
  cases h : o.raised? <;> simp [State.raisedEvents, h]
@[simp] theorem State.observe_pushedBytes (o : Obs) (s : State) :
    (s.observe o).pushedBytes = s.pushedBytes ++ o.pushed?.toList := by
  cases h : o.pushed? <;> simp [State.pushedBytes, h]
/-! How a longer trace extends each sequence. -/

theorem State.consumedBytes_extend {s t : State} {l : List Obs} (h : t.trace = s.trace ++ l) :
    t.consumedBytes = s.consumedBytes ++ l.filterMap Obs.consumed? := by
  simp [State.consumedBytes, h]
theorem State.deliveredPayloads_extend {s t : State} {l : List Obs} (h : t.trace = s.trace ++ l) :
    t.deliveredPayloads = s.deliveredPayloads ++ l.filterMap Obs.delivered? := by
  simp [State.deliveredPayloads, h]
theorem State.acceptedPayloads_extend {s t : State} {l : List Obs} (h : t.trace = s.trace ++ l) :
    t.acceptedPayloads = s.acceptedPayloads ++ l.filterMap Obs.accepted? := by
  simp [State.acceptedPayloads, h]
theorem State.raisedEvents_extend {s t : State} {l : List Obs} (h : t.trace = s.trace ++ l) :
    t.raisedEvents = s.raisedEvents ++ l.filterMap Obs.raised? := by
  simp [State.raisedEvents, h]
theorem State.pushedBytes_extend {s t : State} {l : List Obs} (h : t.trace = s.trace ++ l) :
    t.pushedBytes = s.pushedBytes ++ l.filterMap Obs.pushed? := by
  simp [State.pushedBytes, h]

/-! ### The common tail and the error effect -/

@[simp] theorem Rx.tail_state (c : Bool) (p : TailAt) (b : Byte) (r : Rx) :
    (r.tail c p b).state = r.state := by cases c <;> cases p <;> rfl
@[simp] theorem Rx.tail_len (c : Bool) (p : TailAt) (b : Byte) (r : Rx) :
    (r.tail c p b).len = r.len := by cases c <;> cases p <;> rfl
@[simp] theorem Rx.tail_cursor (c : Bool) (p : TailAt) (b : Byte) (r : Rx) :
    (r.tail c p b).cursor = r.cursor := by cases c <;> cases p <;> rfl
@[simp] theorem Rx.tail_buf (c : Bool) (p : TailAt) (b : Byte) (r : Rx) :
    (r.tail c p b).buf = r.buf := by cases c <;> cases p <;> rfl
@[simp] theorem Rx.tail_outValid (c : Bool) (p : TailAt) (b : Byte) (r : Rx) :
    (r.tail c p b).outValid = r.outValid := by cases c <;> cases p <;> rfl

/-- With `RX_PREV_CARRY` the tail is the same in every state (R71). -/
theorem Rx.tail_carry (p : TailAt) (b : Byte) (r : Rx) :
    r.tail true p b = { r with prev := b, prevValid := true } := rfl

/-! ### The RX effects, field by field, for both values of `RX_PREV_CARRY` -/

@[simp] theorem Rx.seekHit_state (c : Bool) (b : Byte) (r : Rx) :
    (r.seekHit c b).state = .awaitingLength := by simp [Rx.seekHit]
@[simp] theorem Rx.seekHit_len (c : Bool) (b : Byte) (r : Rx) : (r.seekHit c b).len = 0#8 := by
  simp [Rx.seekHit]
@[simp] theorem Rx.seekHit_cursor (c : Bool) (b : Byte) (r : Rx) : (r.seekHit c b).cursor = 0#8 := by
  simp [Rx.seekHit]
@[simp] theorem Rx.seekHit_buf (c : Bool) (b : Byte) (r : Rx) : (r.seekHit c b).buf = r.buf := by
  simp [Rx.seekHit]
@[simp] theorem Rx.seekHit_outValid (c : Bool) (b : Byte) (r : Rx) :
    (r.seekHit c b).outValid = r.outValid := by simp [Rx.seekHit]

@[simp] theorem Rx.seekMiss_state (c : Bool) (b : Byte) (r : Rx) : (r.seekMiss c b).state = r.state := by
  simp [Rx.seekMiss]
@[simp] theorem Rx.seekMiss_len (c : Bool) (b : Byte) (r : Rx) : (r.seekMiss c b).len = r.len := by
  simp [Rx.seekMiss]
@[simp] theorem Rx.seekMiss_cursor (c : Bool) (b : Byte) (r : Rx) :
    (r.seekMiss c b).cursor = r.cursor := by simp [Rx.seekMiss]
@[simp] theorem Rx.seekMiss_buf (c : Bool) (b : Byte) (r : Rx) : (r.seekMiss c b).buf = r.buf := by
  simp [Rx.seekMiss]
@[simp] theorem Rx.seekMiss_outValid (c : Bool) (b : Byte) (r : Rx) :
    (r.seekMiss c b).outValid = r.outValid := by simp [Rx.seekMiss]
/-- A missed byte is the previous byte under both values of `RX_PREV_CARRY` (R71). -/
@[simp] theorem Rx.seekMiss_prev (c : Bool) (b : Byte) (r : Rx) : (r.seekMiss c b).prev = b := by
  cases c <;> rfl
@[simp] theorem Rx.seekMiss_prevValid (c : Bool) (b : Byte) (r : Rx) :
    (r.seekMiss c b).prevValid = true := by cases c <;> rfl

@[simp] theorem Rx.lenOk_state (c : Bool) (b : Byte) (r : Rx) : (r.lenOk c b).state = .accumulating := by
  simp [Rx.lenOk]
@[simp] theorem Rx.lenOk_len (c : Bool) (b : Byte) (r : Rx) : (r.lenOk c b).len = b := by simp [Rx.lenOk]
@[simp] theorem Rx.lenOk_cursor (c : Bool) (b : Byte) (r : Rx) : (r.lenOk c b).cursor = 0#8 := by
  simp [Rx.lenOk]
@[simp] theorem Rx.lenOk_buf (c : Bool) (b : Byte) (r : Rx) : (r.lenOk c b).buf = r.buf := by
  simp [Rx.lenOk]
@[simp] theorem Rx.lenOk_outValid (c : Bool) (b : Byte) (r : Rx) :
    (r.lenOk c b).outValid = r.outValid := by simp [Rx.lenOk]

@[simp] theorem Rx.dropFrame_state (c : Bool) (b : Byte) (r : Rx) :
    (r.dropFrame c b).state = .seekingSync := by simp [Rx.dropFrame]
@[simp] theorem Rx.dropFrame_len (c : Bool) (b : Byte) (r : Rx) : (r.dropFrame c b).len = r.len := by
  simp [Rx.dropFrame]
@[simp] theorem Rx.dropFrame_cursor (c : Bool) (b : Byte) (r : Rx) :
    (r.dropFrame c b).cursor = r.cursor := by simp [Rx.dropFrame]
@[simp] theorem Rx.dropFrame_buf (c : Bool) (b : Byte) (r : Rx) : (r.dropFrame c b).buf = r.buf := by
  simp [Rx.dropFrame]
@[simp] theorem Rx.dropFrame_outValid (c : Bool) (b : Byte) (r : Rx) :
    (r.dropFrame c b).outValid = r.outValid := by simp [Rx.dropFrame]

@[simp] theorem Rx.data_state (c : Bool) (b : Byte) (m : Memory) (r : Rx) :
    (r.data c b m).state = r.state := by simp [Rx.data]
@[simp] theorem Rx.data_len (c : Bool) (b : Byte) (m : Memory) (r : Rx) :
    (r.data c b m).len = r.len := by simp [Rx.data]
@[simp] theorem Rx.data_cursor (c : Bool) (b : Byte) (m : Memory) (r : Rx) :
    (r.data c b m).cursor = r.cursor + 1#8 := by simp [Rx.data]
@[simp] theorem Rx.data_buf (c : Bool) (b : Byte) (m : Memory) (r : Rx) : (r.data c b m).buf = m := by
  simp [Rx.data]
@[simp] theorem Rx.data_outValid (c : Bool) (b : Byte) (m : Memory) (r : Rx) :
    (r.data c b m).outValid = r.outValid := by simp [Rx.data]

@[simp] theorem Rx.csumOk_state (c : Bool) (b : Byte) (r : Rx) :
    (r.csumOk c b).state = .seekingSync := by simp [Rx.csumOk]
@[simp] theorem Rx.csumOk_len (c : Bool) (b : Byte) (r : Rx) : (r.csumOk c b).len = r.len := by
  simp [Rx.csumOk]
@[simp] theorem Rx.csumOk_cursor (c : Bool) (b : Byte) (r : Rx) :
    (r.csumOk c b).cursor = r.cursor := by simp [Rx.csumOk]
@[simp] theorem Rx.csumOk_buf (c : Bool) (b : Byte) (r : Rx) : (r.csumOk c b).buf = r.buf := by
  simp [Rx.csumOk]
@[simp] theorem Rx.csumOk_outValid (c : Bool) (b : Byte) (r : Rx) :
    (r.csumOk c b).outValid = true := by simp [Rx.csumOk]

@[simp] theorem Rx.take_state (r : Rx) : r.take.state = r.state := rfl
@[simp] theorem Rx.take_prevValid (r : Rx) : r.take.prevValid = r.prevValid := rfl
@[simp] theorem Rx.take_prev (r : Rx) : r.take.prev = r.prev := rfl
@[simp] theorem Rx.take_len (r : Rx) : r.take.len = r.len := rfl
@[simp] theorem Rx.take_cursor (r : Rx) : r.take.cursor = r.cursor := rfl
@[simp] theorem Rx.take_buf (r : Rx) : r.take.buf = r.buf := rfl
@[simp] theorem Rx.take_outValid (r : Rx) : r.take.outValid = false := rfl

end Sys2Proof.Machine
end

