-- ==== Sys2Proof/Laws/Ops.lean ====
section
/-! SUPPORT. What each operand form and each meaning can do: if it answers a next state, its guard held and the next
state is this one. Later proofs cite these and unfold no meaning. -/
namespace Sys2Proof.Machine

/-! ### Operand forms -/

theorem consuming_next {b : Byte} {s t : State} {k : State → Result} (h : consuming b s k = .next t) :
    ∃ rest, s.env.rxIn = b :: rest ∧ s.rx.outValid = false ∧ k (s.popped b rest) = .next t := by
  unfold consuming at h
  split at h
  · cases h
  · split at h
    · rename_i c rest hin hc
      obtain ⟨rfl, hov⟩ := hc
      exact ⟨rest, hin, hov, h⟩
    · cases h

theorem consuming_eq {b : Byte} {s : State} {rest : List Byte} (k : State → Result)
    (hin : s.env.rxIn = b :: rest) (hov : s.rx.outValid = false) :
    consuming b s k = k (s.popped b rest) := by
  simp [consuming, hin, hov]

theorem accumulating_next {s t : State} {k : Result} (h : accumulating s k = .next t) :
    s.rx.state = .accumulating ∧ s.rx.cursor.toNat ≤ s.rx.len.toNat ∧ k = .next t := by
  unfold accumulating at h
  split at h
  · split at h
    · cases h
    · exact ⟨‹_›, by omega, h⟩
  · cases h

theorem accumulating_eq {s : State} (k : Result) (hst : s.rx.state = .accumulating)
    (hc : s.rx.cursor.toNat ≤ s.rx.len.toNat) : accumulating s k = k := by
  simp [accumulating, hst, Nat.not_lt.mpr hc]

theorem atChecksum_next {s t : State} {k : Payload → Result} (h : atChecksum s k = .next t) :
    ∃ d, s.rx.state = .accumulating ∧ s.rx.cursor = s.rx.len ∧
      memRange s.rx.buf 0 s.rx.len.toNat = .ok d ∧ k d = .next t := by
  obtain ⟨hst, -, h⟩ := accumulating_next h
  split at h
  · split at h
    · cases h
    · exact ⟨_, hst, ‹_›, ‹_›, h⟩
  · cases h

theorem atChecksum_eq {s : State} {d : Payload} (k : Payload → Result) (hst : s.rx.state = .accumulating)
    (hc : s.rx.cursor = s.rx.len) (hd : memRange s.rx.buf 0 s.rx.len.toNat = .ok d) :
    atChecksum s k = k d := by
  rw [atChecksum, accumulating_eq _ hst (by rw [hc]), if_pos hc, hd]

theorem requested_next {s t : State} {k : Payload → State → Result} (h : requested s k = .next t) :
    ∃ p rest, s.env.requests = p :: rest ∧ s.tx.state = .idle ∧ k p (s.requestGone rest) = .next t := by
  unfold requested at h
  split at h
  · cases h
  · split at h
    · exact ⟨_, _, ‹_›, ‹_›, h⟩
    · cases h

theorem requested_eq {s : State} {p : Payload} {rest : List Payload} (k : Payload → State → Result)
    (hr : s.env.requests = p :: rest) (hst : s.tx.state = .idle) :
    requested s k = k p (s.requestGone rest) := by
  simp [requested, hr, hst]

theorem emitting_next {st : TxState} {s t : State} {k : Result} (h : emitting st s k = .next t) :
    s.tx.state = st ∧ k = .next t := by
  unfold emitting at h
  split at h
  · exact ⟨‹_›, h⟩
  · cases h

theorem emitting_eq {st : TxState} {s : State} (k : Result) (h : s.tx.state = st) :
    emitting st s k = k := by
  simp [emitting, h]

/-! ### The deframer's meanings -/

theorem execRxSeekHit_next {b : Byte} {s t : State} (h : execRxSeekHit b s = .next t) :
    ∃ rest, s.env.rxIn = b :: rest ∧ s.rx.outValid = false ∧ s.rx.state = .seekingSync ∧
      syncHit s.rx.prevValid s.rx.prev b = true ∧
      t = { s.popped b rest with rx := s.rx.seekHit true b } := by
  obtain ⟨rest, hin, hov, h⟩ := consuming_next h
  split at h
  · rename_i hg
    cases h
    exact ⟨rest, hin, hov, hg.1, hg.2, rfl⟩
  · cases h

theorem execRxSeekMiss_next {b : Byte} {s t : State} (h : execRxSeekMiss b s = .next t) :
    ∃ rest, s.env.rxIn = b :: rest ∧ s.rx.outValid = false ∧ s.rx.state = .seekingSync ∧
      syncHit s.rx.prevValid s.rx.prev b = false ∧
      t = { s.popped b rest with rx := s.rx.seekMiss true b } := by
  obtain ⟨rest, hin, hov, h⟩ := consuming_next h
  split at h
  · rename_i hg
    cases h
    exact ⟨rest, hin, hov, hg.1, hg.2, rfl⟩
  · cases h

theorem execRxLenOk_next {b : Byte} {s t : State} (h : execRxLenOk b s = .next t) :
    ∃ rest, s.env.rxIn = b :: rest ∧ s.rx.outValid = false ∧ s.rx.state = .awaitingLength ∧
      b.toNat ≤ Config.rxCap ∧ t = { s.popped b rest with rx := s.rx.lenOk true b } := by
  obtain ⟨rest, hin, hov, h⟩ := consuming_next h
  split at h
  · rename_i hg
    cases h
    exact ⟨rest, hin, hov, hg.1, hg.2, rfl⟩
  · cases h

theorem execRxLenOversize_next {b : Byte} {s t : State} (h : execRxLenOversize b s = .next t) :
    ∃ rest, s.env.rxIn = b :: rest ∧ s.rx.outValid = false ∧ s.rx.state = .awaitingLength ∧
      Config.rxCap < b.toNat ∧
      t = { (s.popped b rest).raise (.oversizeLength b) with rx := s.rx.lenOversize true b } := by
  obtain ⟨rest, hin, hov, h⟩ := consuming_next h
  split at h
  · rename_i hg
    cases h
    exact ⟨rest, hin, hov, hg.1, hg.2, rfl⟩
  · cases h

theorem execRxData_next {b : Byte} {s t : State} (h : execRxData b s = .next t) :
    ∃ rest, s.env.rxIn = b :: rest ∧ s.rx.outValid = false ∧ s.rx.state = .accumulating ∧
      s.rx.cursor.toNat < s.rx.len.toNat ∧ s.rx.cursor.toNat < Config.rxCap ∧
      t = { s.popped b rest with rx := s.rx.data true b (s.rx.buf.write s.rx.cursor.toNat b) } := by
  obtain ⟨rest, hin, hov, h⟩ := consuming_next h
  obtain ⟨hst, -, h⟩ := accumulating_next h
  split at h
  · rename_i hc
    split at h
    · cases h
    · rename_i buf hw
      obtain ⟨hi, rfl⟩ := memWrite_ok hw
      cases h
      exact ⟨rest, hin, hov, hst, hc, hi, rfl⟩
  · cases h

theorem execRxCsumOk_next {b : Byte} {s t : State} (h : execRxCsumOk b s = .next t) :
    ∃ rest d, s.env.rxIn = b :: rest ∧ s.rx.outValid = false ∧ s.rx.state = .accumulating ∧
      s.rx.cursor = s.rx.len ∧ memRange s.rx.buf 0 s.rx.len.toNat = .ok d ∧
      csumOk s.rx.len d b = true ∧
      t = { (s.popped b rest).deliver d with rx := s.rx.csumOk true b } := by
  obtain ⟨rest, hin, hov, h⟩ := consuming_next h
  obtain ⟨d, hst, hc, hd, h⟩ := atChecksum_next h
  split at h
  · cases h
    exact ⟨rest, d, hin, hov, hst, hc, hd, ‹_›, rfl⟩
  · cases h

theorem execRxCsumFail_next {b : Byte} {s t : State} (h : execRxCsumFail b s = .next t) :
    ∃ rest d, s.env.rxIn = b :: rest ∧ s.rx.outValid = false ∧ s.rx.state = .accumulating ∧
      s.rx.cursor = s.rx.len ∧ memRange s.rx.buf 0 s.rx.len.toNat = .ok d ∧
      csumOk s.rx.len d b = false ∧
      t = { (s.popped b rest).raise (.checksumMismatch b) with rx := s.rx.csumFail true b } := by
  obtain ⟨rest, hin, hov, h⟩ := consuming_next h
  obtain ⟨d, hst, hc, hd, h⟩ := atChecksum_next h
  split at h
  · cases h
    exact ⟨rest, d, hin, hov, hst, hc, hd, ‹_›, rfl⟩
  · cases h

theorem execRxTake_next {s t : State} (h : execRxTake s = .next t) :
    s.rx.outValid = true ∧ t = { s.observe .taken with rx := s.rx.take } := by
  unfold execRxTake at h
  split at h
  · cases h
    exact ⟨‹_›, rfl⟩
  · cases h

/-! ### The encoder's meanings -/

theorem execTxReq_next {p : Payload} {s t : State} (h : execTxReq p s = .next t) :
    ∃ rest buf, s.env.requests = p :: rest ∧ s.tx.state = .idle ∧ p.length ≤ Config.maxLen ∧
      memFill s.tx.buf 0 p = .ok buf ∧
      t = { (s.requestGone rest).observe (.accepted p) with
            tx := { state := .sync0, len := BitVec.ofNat 8 p.length, cursor := 0#8, buf := buf } } := by
  obtain ⟨q, rest, hr, hst, h⟩ := requested_next h
  split at h
  · rename_i hg
    obtain ⟨rfl, hl⟩ := hg
    split at h
    · cases h
    · rename_i buf hf
      cases h
      exact ⟨rest, buf, hr, hst, hl, hf, rfl⟩
  · cases h

theorem execTxReqOversize_next {n : Byte} {s t : State} (h : execTxReqOversize n s = .next t) :
    ∃ p rest, s.env.requests = p :: rest ∧ s.tx.state = .idle ∧ p.length = n.toNat ∧
      Config.maxLen < n.toNat ∧ t = (s.requestGone rest).raise (.txOversize n) := by
  obtain ⟨p, rest, hr, hst, h⟩ := requested_next h
  split at h
  · rename_i hg
    cases h
    exact ⟨p, rest, hr, hst, hg.1, hg.2, rfl⟩
  · cases h

theorem execTxSync0_next {s t : State} (h : execTxSync0 s = .next t) :
    s.tx.state = .sync0 ∧ t = { s.push Config.sync0 with tx := { s.tx with state := .sync1 } } := by
  obtain ⟨hst, h⟩ := emitting_next h
  cases h
  exact ⟨hst, rfl⟩

theorem execTxSync1_next {s t : State} (h : execTxSync1 s = .next t) :
    s.tx.state = .sync1 ∧ t = { s.push Config.sync1 with tx := { s.tx with state := .len } } := by
  obtain ⟨hst, h⟩ := emitting_next h
  cases h
  exact ⟨hst, rfl⟩

theorem execTxLen_next {s t : State} (h : execTxLen s = .next t) :
    s.tx.state = .len ∧
      t = { s.push s.tx.len with
            tx := { s.tx with cursor := 0#8, state := if s.tx.len = 0#8 then .csum else .data } } := by
  obtain ⟨hst, h⟩ := emitting_next h
  cases h
  exact ⟨hst, rfl⟩

theorem execTxData_next {s t : State} (h : execTxData s = .next t) :
    ∃ v, s.tx.state = .data ∧ s.tx.cursor.toNat < s.tx.len.toNat ∧
      memRead s.tx.buf s.tx.cursor.toNat = .ok v ∧
      t = { s.push v with
            tx := { s.tx with
                    cursor := s.tx.cursor + 1#8,
                    state := if s.tx.cursor + 1#8 = s.tx.len then .csum else .data } } := by
  obtain ⟨hst, h⟩ := emitting_next h
  split at h
  · split at h
    · cases h
    · cases h
      exact ⟨_, hst, ‹_›, ‹_›, rfl⟩
  · cases h

theorem execTxCsum_next {s t : State} (h : execTxCsum s = .next t) :
    ∃ d, s.tx.state = .csum ∧ memRange s.tx.buf 0 s.tx.len.toNat = .ok d ∧
      t = { s.push (csumFor s.tx.len.toNat d) with tx := { s.tx with state := .idle } } := by
  obtain ⟨hst, h⟩ := emitting_next h
  split at h
  · cases h
  · cases h
    exact ⟨_, hst, ‹_›, rfl⟩

/-! ### Reset and the wire format -/

theorem execReset_next {s t : State} (h : execReset s = .next t) :
    t = { s.observe .wasReset with
          rx := Rx.afterReset s.freeNext, tx := Tx.afterReset s.freeNext, freeNext := s.freeNext + 5 } := by
  cases h
  rfl

theorem execFrame_next {p : Payload} {s t : State} (h : execFrame p s = .next t) :
    p.length ≤ Config.maxLen ∧ t = s.supply (frameBytes p) := by
  unfold execFrame at h
  split at h
  · cases h
    exact ⟨‹_›, rfl⟩
  · cases h

end Sys2Proof.Machine
end

