-- ==== Sys2Proof/Laws/PerInstr.lean ====
section
/-! SUPPORT. Per-instruction laws of the syntax. Family `InputLength`: the encoding of a well-formed operation has as
many input bytes as its row's format says, one for `rx_byte`, none for `no_byte` and `tx_emit`, and `L + 4`
(4 to 258) for the wire frame (spec/30_encoding.md, opening text and R50). -/
namespace Sys2Proof.Laws.InputLength

/-- Input bytes of the row of an operation. -/
def rowBytes : Instr → Nat
  | .rxSeekHit _ => 1
  | .rxSeekMiss _ => 1
  | .rxLenOk _ => 1
  | .rxLenOversize _ => 1
  | .rxData _ => 1
  | .rxCsumOk _ => 1
  | .rxCsumFail _ => 1
  | .rxTake => 0
  | .txReq _ => 0
  | .txReqOversize _ => 0
  | .txSync0 => 0
  | .txSync1 => 0
  | .txLen => 0
  | .txData => 0
  | .txCsum => 0
  | .reset => 0
  | .frame p => p.length + Config.overhead

def Statement (i : Instr) : Prop :=
  i.wf = true → (encode i).inputBytes.length = rowBytes i ∧ rowBytes i ≤ Config.maxLen + Config.overhead

/-- One byte is no longer than the longest frame, 258 bytes (R4). -/
theorem one_byte_fits : 1 ≤ Config.maxLen + Config.overhead := by decide

theorem rxSeekHit (b : Byte) : Statement (.rxSeekHit b) := fun _ => ⟨rfl, one_byte_fits⟩
theorem rxSeekMiss (b : Byte) : Statement (.rxSeekMiss b) := fun _ => ⟨rfl, one_byte_fits⟩
theorem rxLenOk (b : Byte) : Statement (.rxLenOk b) := fun _ => ⟨rfl, one_byte_fits⟩
theorem rxLenOversize (b : Byte) : Statement (.rxLenOversize b) := fun _ => ⟨rfl, one_byte_fits⟩
theorem rxData (b : Byte) : Statement (.rxData b) := fun _ => ⟨rfl, one_byte_fits⟩
theorem rxCsumOk (b : Byte) : Statement (.rxCsumOk b) := fun _ => ⟨rfl, one_byte_fits⟩
theorem rxCsumFail (b : Byte) : Statement (.rxCsumFail b) := fun _ => ⟨rfl, one_byte_fits⟩
theorem rxTake : Statement .rxTake := fun _ => ⟨rfl, by decide⟩
theorem txReq (p : Payload) : Statement (.txReq p) := fun _ => ⟨rfl, Nat.zero_le _⟩
theorem txReqOversize (n : Byte) : Statement (.txReqOversize n) := fun _ => ⟨rfl, Nat.zero_le _⟩
theorem txSync0 : Statement .txSync0 := fun _ => ⟨rfl, by decide⟩
theorem txSync1 : Statement .txSync1 := fun _ => ⟨rfl, by decide⟩
theorem txLen : Statement .txLen := fun _ => ⟨rfl, by decide⟩
theorem txData : Statement .txData := fun _ => ⟨rfl, by decide⟩
theorem txCsum : Statement .txCsum := fun _ => ⟨rfl, by decide⟩
theorem reset : Statement .reset := fun _ => ⟨rfl, by decide⟩
theorem frame (p : Payload) : Statement (.frame p) := fun h => by
  have hl : p.length ≤ Config.maxLen := by simpa [Instr.wf] using h
  constructor
  · simp only [encode, Presented.inputBytes, frameBytes, rowBytes, Config.overhead, List.length_append,
      List.length_cons, List.length_nil]
    omega
  · simp only [rowBytes]
    omega

end Sys2Proof.Laws.InputLength
end

