-- ==== Sys2Proof/Machine/Script.lean ====
section
/-! DEFINITION. The script notation of spec/30_encoding.md R59 and the pseudo-operations of R60, as schedules the
machine plays. `expect` is a claim, not an action, and has no line here. -/
namespace Sys2Proof.Machine

/-- One line of a script (R59). -/
inductive ScriptLine where
  | rx (bs : List Byte)
  | take
  | tx (p : Payload)
  | drain
  | reset
  deriving DecidableEq, Repr

/-- RX consumes as far as it is enabled: one turn for every byte that may be waiting. -/
def rxTurns (n : Nat) : List Moment := List.replicate n ⟨false, .rx⟩

/-- The sink accepts bytes until the encoder is `Idle`: no frame has more than 258. -/
def sinkTurns : List Moment := List.replicate (Config.maxLen + Config.overhead) ⟨false, .sink⟩

/-- The schedule a script line stands for in a state. After a `take` or a `reset` RX goes on with what
waits; after a `drain` a request that waited is looked at (R99). DESIGN CHOICE (log 20): a `tx` line gives one
turn to the requests, a `drain` line one at its end, and no other line gives any; so a request that waits
across a `reset` (R151 d), or behind one that is discarded, is looked at in the next such turn. -/
def ScriptLine.moments (s : State) : ScriptLine → List Moment
  | .rx bs => ⟨false, .wire bs⟩ :: rxTurns (s.env.rxIn.length + bs.length)
  | .take => ⟨false, .take⟩ :: rxTurns s.env.rxIn.length
  | .tx p => [⟨false, .present p⟩, ⟨false, .request⟩]
  | .drain => sinkTurns ++ [⟨false, .request⟩]
  | .reset => ⟨true, .wire []⟩ :: rxTurns s.env.rxIn.length

/-- Steps until the schedule is empty, at most `k`. -/
def play : Nat → State → Result
  | 0, s => .next s
  | k + 1, s =>
    match s.env.agenda with
    | [] => .next s
    | _ :: _ =>
      match step s with
      | .next t => play k t
      | .fault f => .fault f
      | .refused r => .refused r

/-- Run a script, top to bottom, from a state with nothing scheduled. A moment takes at most two steps. -/
def runScript : List ScriptLine → State → Result
  | [], s => .next s
  | l :: ls, s =>
    let ms := l.moments s
    match play (2 * ms.length) (s.withAgenda ms) with
    | .next t => runScript ls t
    | .fault f => .fault f
    | .refused r => .refused r

/-- `FRAME[p]` (R60): the stream `encode(p)`. -/
def goodFrame (p : Payload) : List Byte := frameBytes p

/-- `BADFRAME[p]` (R60): the frame with its last byte replaced by `csum(p) + 1`. -/
def badFrame (p : Payload) : List Byte := (frameBytes p).dropLast ++ [csum p + 1#8]

/-- `rxframe <payload>` (R60). -/
def rxFrame (p : Payload) : List ScriptLine := [.rx (goodFrame p), .take]

/-- `txframe <payload>` (R60). -/
def txFrame (p : Payload) : List ScriptLine := [.tx p, .drain]

end Sys2Proof.Machine
end

