-- ==== Sys2Proof/Tests/Slice0.lean ====
section
/-! SUPPORT. Small tests with results taken from the spec's own examples, tables and vectors (named beside each), and
for every obligation with hypotheses a witness that meets them. -/
namespace Sys2Proof.Tests
open Sys2Proof.Machine

/-! ### Builders -/

/-- A deframer with nothing pending and a previous byte, in front of some input. -/
def deframer (st : RxState) (prev len cursor : Byte) (buf : Memory) (input : List Byte) : State :=
  { State.reset with
    rx := { state := st, prevValid := true, prev := prev, len := len, cursor := cursor, buf := buf,
            outValid := false },
    env := { rxIn := input, requests := [], agenda := [] } }

/-- An encoder in front of some requests. -/
def encoder (st : TxState) (len cursor : Byte) (buf : Memory) (reqs : List Payload) : State :=
  { State.reset with
    tx := { state := st, len := len, cursor := cursor, buf := buf },
    env := { rxIn := [], requests := reqs, agenda := [] } }

/-- The same state with a payload pending. -/
def pend (s : State) : State := { s with rx := { s.rx with outValid := true } }

/-- A request one byte too long (V12). -/
def longRequest : Payload := List.replicate 255 0#8

theorem longRequest_length : longRequest.length = 255 := List.length_replicate

def after : Result → Option State
  | .next s => some s
  | .fault _ => none
  | .refused _ => none

def faultOf : Result → Option Fault
  | .next _ => none
  | .fault f => some f
  | .refused _ => none

def refusalOf : Result → Option Refusal
  | .next _ => none
  | .fault _ => none
  | .refused r => some r

def rxAfter (r : Result) : Option Rx := (after r).map (·.rx)
def txAfter (r : Result) : Option Tx := (after r).map (·.tx)
def traceAfter (r : Result) : Option (List Obs) := (after r).map (·.trace)

/-! ### Well-formedness: an operand each check refuses (R51, R55, R56, R60) -/

theorem test_wf_seek_hit : (Instr.rxSeekHit 0x12#8).wf = false := by decide
theorem test_wf_len_ok : (Instr.rxLenOk 0xFF#8).wf = false := by decide
theorem test_wf_len_oversize : (Instr.rxLenOversize 254#8).wf = false := by decide
theorem test_wf_tx_req : (Instr.txReq longRequest).wf = false := by
  simp [Instr.wf, Config.maxLen, longRequest_length]
theorem test_wf_tx_req_oversize : (Instr.txReqOversize 254#8).wf = false := by decide
theorem test_wf_frame : (Instr.frame longRequest).wf = false := by
  simp [Instr.wf, Config.maxLen, longRequest_length]
theorem test_wf_good :
    (Instr.rxSeekHit 0x55#8).wf = true ∧ (Instr.rxLenOk 254#8).wf = true ∧
    (Instr.rxLenOversize 255#8).wf = true ∧ (Instr.txReqOversize 255#8).wf = true ∧
    (Instr.frame []).wf = true := by decide

/-! ### Decoding: one word for every row, written from R51, R55 and R56 -/

theorem test_decode_seek_hit :
    decode (.rxByte seekingArmed 0b01010101#8) = .ok (.rxSeekHit 0x55#8) := by decide
/-- `55` without a previous `FF` is no hit (R55; V19). -/
theorem test_decode_seek_miss :
    decode (.rxByte seekingFresh 0b01010101#8) = .ok (.rxSeekMiss 0x55#8) := by decide
theorem test_decode_len_ok :
    decode (.rxByte awaitingView 0b11111110#8) = .ok (.rxLenOk 254#8) := by decide
theorem test_decode_len_oversize :
    decode (.rxByte awaitingView 0b11111111#8) = .ok (.rxLenOversize 0xFF#8) := by decide
/-- A data byte `FF` is data (R55; V24). -/
theorem test_decode_data :
    decode (.rxByte (accumulatingView 0#8 [0#8]) 0b11111111#8) = .ok (.rxData 0xFF#8) := by decide
/-- The last operation of V2's frame read back: `1 + 0 + FF = 256`. -/
theorem test_decode_csum_ok :
    decode (.rxByte (accumulatingView 1#8 [0x00#8]) 0b11111111#8) = .ok (.rxCsumOk 0xFF#8) := by decide
/-- The mismatch of V16: `1 + 0 + FE = 255`. -/
theorem test_decode_csum_fail :
    decode (.rxByte (accumulatingView 1#8 [0x00#8]) 0b11111110#8) = .ok (.rxCsumFail 0xFE#8) := by decide
theorem test_decode_take :
    decode (.take true) = .ok .rxTake ∧ decode (.take false) = .error .nothingPending := by decide
theorem test_decode_tx_req :
    decode (.request (txView .idle 0#8) [0x00#8, 0x05#8]) = .ok (.txReq [0x00#8, 0x05#8]) := by decide
theorem test_decode_tx_req_oversize :
    decode (.request (txView .idle 0#8) longRequest) =
      .ok (.txReqOversize 0xFF#8) := by
  simp [decode, decodeRequest, txView, Config.maxRequest, Config.maxLen, longRequest_length]
theorem test_decode_tx_emit :
    decode (.sink (txView .sync0 1#8)) = .ok .txSync0 ∧ decode (.sink (txView .sync1 1#8)) = .ok .txSync1 ∧
    decode (.sink (txView .len 1#8)) = .ok .txLen ∧ decode (.sink (txView .data 1#8)) = .ok .txData ∧
    decode (.sink (txView .csum 1#8)) = .ok .txCsum ∧
    decode (.sink (txView .idle 1#8)) = .error .nothingToEmit := by decide
theorem test_decode_reset : decode .rst = .ok .reset := by decide
/-- The frame of S4 (V4). -/
theorem test_decode_frame :
    decode (.wire [0b11111111#8, 0b01010101#8, 0x02#8, 0x00#8, 0x05#8, 0xF9#8]) =
      .ok (.frame [0x00#8, 0x05#8]) := by decide
/-- A length byte `FF` is no frame (R51). -/
theorem test_decode_frame_oversize :
    decode (.wire [0xFF#8, 0x55#8, 0xFF#8, 0x00#8]) = .error .oversizeLength := by decide

/-! ### The words of spec/opcode_table.json (log 8) -/

theorem test_table_seek_hit : decodeTableWord 8 0x55 = some (.rxSeekHit 0x55#8) := by decide
theorem test_table_oversize : decodeTableWord 8 0xFF = some (.rxLenOversize 0xFF#8) := by decide
theorem test_table_reset : decodeTableWord 0 0 = some .reset := by decide
/-- The FRAME row's fixed bits `FF 55` and zeros: the frame of the empty payload (V1). -/
theorem test_table_frame : decodeTableWord 16 0xFF55 = some (.frame []) := by decide
theorem test_fetch_seek_hit :
    (rxAfter (step (State.reset.withFetchWord 8 0x55))).map (·.state) = some .awaitingLength := by decide
theorem test_fetch_frame :
    (after (step (State.reset.withFetchWord 16 0xFF55))).map (·.env.rxIn) =
      some [0xFF#8, 0x55#8, 0x00#8, 0x00#8] := by decide

/-! ### Checksums (R54, corner values) -/

theorem test_csum_empty : csum [] = 0x00#8 := by decide
theorem test_csum_source_example : csum [0x00#8] = 0xFF#8 := by decide
theorem test_csum_multiple_of_256 : csum [0xFF#8] = 0x00#8 := by decide
/-- V6. -/
theorem test_frame_bytes :
    frameBytes [0x04#8, 0x00#8, 0x26#8, 0x01#8] =
      [0xFF#8, 0x55#8, 0x04#8, 0x04#8, 0x00#8, 0x26#8, 0x01#8, 0xD1#8] := by decide
/-- R60: the last byte of `BADFRAME` is the check value plus one, modulo 256. -/
theorem test_bad_frame : badFrame [0x00#8] = [0xFF#8, 0x55#8, 0x01#8, 0x00#8, 0x00#8] := by decide

/-! ### One step of each operation -/

/-- R72. -/
theorem test_seek_hit :
    rxAfter (exec (.rxSeekHit 0x55#8) (deframer .seekingSync 0xFF#8 9#8 7#8 [(3, 0x77#8)] [0x55#8, 0x01#8])) =
      some { state := .awaitingLength, prevValid := true, prev := 0x55#8, len := 0#8, cursor := 0#8,
             buf := [(3, 0x77#8)], outValid := false } := by decide
/-- R73: the first byte ever, without a previous one. -/
theorem test_seek_miss_first :
    (rxAfter (exec (.rxSeekMiss 0x55#8) { State.reset with env := { State.reset.env with rxIn := [0x55#8] } })).map
        (fun r => (r.state, r.prevValid, r.prev)) = some (.seekingSync, true, 0x55#8) := by decide
/-- V20b: `00` between the sync bytes. -/
theorem test_seek_miss_not_adjacent :
    refusalOf (exec (.rxSeekHit 0x55#8) (deframer .seekingSync 0x00#8 0#8 0#8 [] [0x55#8])) =
      some .notEnabled := by decide
/-- R74 with the largest legal length. -/
theorem test_len_ok :
    (rxAfter (exec (.rxLenOk 254#8) (deframer .awaitingLength 0x55#8 0#8 5#8 [] [254#8]))).map
        (fun r => (r.state, r.len, r.cursor)) = some (.accumulating, 254#8, 0#8) := by decide
/-- R75: the oversize byte stays the previous byte (V22). -/
theorem test_len_oversize :
    (rxAfter (exec (.rxLenOversize 0xFF#8) (deframer .awaitingLength 0x55#8 0#8 0#8 [] [0xFF#8]))).map
        (fun r => (r.state, r.prevValid, r.prev, r.len)) = some (.seekingSync, true, 0xFF#8, 0#8) := by decide
theorem test_len_oversize_event :
    traceAfter (exec (.rxLenOversize 0xFF#8) (deframer .awaitingLength 0x55#8 0#8 0#8 [] [0xFF#8])) =
      some [.consumed 0xFF#8, .raised (.oversizeLength 0xFF#8)] := by decide
/-- R76 at the last index, 253. -/
theorem test_data_last :
    (rxAfter (exec (.rxData 0x12#8) (deframer .accumulating 0#8 254#8 253#8 [] [0x12#8]))).map
        (fun r => (r.state, r.cursor, r.buf)) = some (.accumulating, 254#8, [(253, 0x12#8)]) := by decide
/-- R76: a stale byte is overwritten, the ones beyond it stay (P1). -/
theorem test_data_stale :
    (rxAfter (exec (.rxData 0x01#8)
        (deframer .accumulating 3#8 3#8 0#8 [(0, 0x04#8), (1, 0x00#8)] [0x01#8]))).map (·.buf) =
      some [(0, 0x01#8), (1, 0x00#8)] := by decide
/-- R77: the sum is 256 times something (V24's `FF 55 02 FF 55 AA`). -/
theorem test_csum_ok :
    traceAfter (exec (.rxCsumOk 0xAA#8)
        (deframer .accumulating 0x55#8 2#8 2#8 [(0, 0xFF#8), (1, 0x55#8)] [0xAA#8])) =
      some [.consumed 0xAA#8, .delivered [0xFF#8, 0x55#8]] := by decide
theorem test_csum_ok_pending :
    (rxAfter (exec (.rxCsumOk 0x00#8) (deframer .accumulating 0#8 0#8 0#8 [] [0x00#8]))).map
        (fun r => (r.state, r.outValid, r.prev)) = some (.seekingSync, true, 0x00#8) := by decide
/-- R78 (V15's `FF 55 00 01`). -/
theorem test_csum_fail :
    traceAfter (exec (.rxCsumFail 0x01#8) (deframer .accumulating 0#8 0#8 0#8 [] [0x01#8])) =
      some [.consumed 0x01#8, .raised (.checksumMismatch 0x01#8)] := by decide
theorem test_csum_fail_pending :
    (rxAfter (exec (.rxCsumFail 0x01#8) (deframer .accumulating 0#8 0#8 0#8 [] [0x01#8]))).map
        (fun r => (r.state, r.outValid, r.prev)) = some (.seekingSync, false, 0x01#8) := by decide
/-- R79. -/
theorem test_take :
    (rxAfter (exec .rxTake (pend (deframer .seekingSync 0xFF#8 1#8 1#8 [(0, 0#8)] [0x41#8])))).map
        (fun r => (r.outValid, r.len, r.buf)) = some (false, 1#8, [(0, 0#8)]) := by decide
/-- R91 (P2's second request: `tx_buf[2..4)` stays). -/
theorem test_tx_req :
    txAfter (exec (.txReq [0xFF#8, 0x55#8])
        (encoder .idle 4#8 4#8 [(0, 0#8), (1, 2#8), (2, 0#8), (3, 5#8)] [[0xFF#8, 0x55#8]])) =
      some { state := .sync0, len := 2#8, cursor := 0#8,
             buf := [(0, 0xFF#8), (1, 0x55#8), (2, 0#8), (3, 5#8)] } := by decide
/-- R92 (V12). -/
theorem test_tx_req_oversize :
    traceAfter (exec (.txReqOversize 0xFF#8) (encoder .idle 1#8 0#8 [] [longRequest])) =
      some [.raised (.txOversize 0xFF#8)] := by
  simp [exec, execTxReqOversize, requested, encoder, traceAfter, after, Config.maxLen, longRequest_length, State.reset,
    State.requestGone, State.raise, State.observe]
theorem test_tx_req_oversize_state :
    txAfter (exec (.txReqOversize 0xFF#8) (encoder .idle 1#8 0#8 [] [longRequest])) =
      some { state := .idle, len := 1#8, cursor := 0#8, buf := [] } := by
  simp [exec, execTxReqOversize, requested, encoder, txAfter, after, Config.maxLen, longRequest_length, State.requestGone,
    State.raise, State.observe]
theorem test_tx_sync0 :
    traceAfter (exec .txSync0 (encoder .sync0 1#8 0#8 [] [])) = some [.pushed 0xFF#8] := by decide
theorem test_tx_sync1 :
    (txAfter (exec .txSync1 (encoder .sync1 1#8 0#8 [] []))).map (·.state) = some .len := by decide
theorem test_tx_sync1_byte :
    traceAfter (exec .txSync1 (encoder .sync1 1#8 0#8 [] [])) = some [.pushed 0x55#8] := by decide
/-- R95: an empty payload has no data (V1). -/
theorem test_tx_len_empty :
    (txAfter (exec .txLen (encoder .len 0#8 3#8 [] []))).map (fun t => (t.state, t.cursor)) =
      some (.csum, 0#8) := by decide
theorem test_tx_len :
    (txAfter (exec .txLen (encoder .len 1#8 3#8 [] []))).map (fun t => (t.state, t.cursor)) =
      some (.data, 0#8) := by decide
/-- R96 at index 253 of the longest payload: the cursor reaches 254 (V10). -/
theorem test_tx_data_last :
    (txAfter (exec .txData (encoder .data 254#8 253#8 [(253, 0xFF#8)] []))).map
        (fun t => (t.state, t.cursor)) = some (.csum, 254#8) := by decide
theorem test_tx_data_not_last :
    traceAfter (exec .txData (encoder .data 2#8 0#8 [(0, 0xFF#8), (1, 0x55#8)] [])) =
      some [.pushed 0xFF#8] := by decide
/-- R97 (V3): a sum of 256 gives `00`. -/
theorem test_tx_csum :
    traceAfter (exec .txCsum (encoder .csum 1#8 1#8 [(0, 0xFF#8)] [])) = some [.pushed 0x00#8] := by decide
theorem test_tx_csum_state :
    (txAfter (exec .txCsum (encoder .csum 1#8 1#8 [(0, 0xFF#8)] []))).map (·.state) = some .idle := by decide
/-- R150, R151 (V33): a reset inside a frame drops it silently. -/
theorem test_reset :
    (rxAfter (exec .reset (deframer .accumulating 0#8 4#8 2#8 [(0, 4#8), (1, 0#8)] []))).map
        (fun r => (r.state, r.prevValid, r.outValid)) = some (.seekingSync, false, false) := by decide
theorem test_reset_trace :
    traceAfter (exec .reset (deframer .accumulating 0#8 4#8 2#8 [(0, 4#8), (1, 0#8)] [])) =
      some [.wasReset] := by decide
/-- R60 (V4's frame behind a waiting byte). -/
theorem test_frame :
    (after (exec (.frame [0x00#8, 0x05#8]) (deframer .seekingSync 0#8 0#8 0#8 [] [0x41#8]))).map (·.env.rxIn) =
      some [0x41#8, 0xFF#8, 0x55#8, 0x02#8, 0x00#8, 0x05#8, 0xF9#8] := by decide

/-! ### Short runs (S1, V21, V22) -/

/-- S1, for both values of `RX_PREV_CARRY`. -/
theorem test_stream_source_example :
    decodeStream true [0xFF#8, 0x55#8, 0x01#8, 0x00#8, 0xFF#8] = some [[0x00#8]] ∧
    decodeStream false [0xFF#8, 0x55#8, 0x01#8, 0x00#8, 0xFF#8] = some [[0x00#8]] := by decide
/-- V22, the vector that depends on `RX_PREV_CARRY`. -/
theorem test_stream_oversize_carry :
    decodeStream true [0xFF#8, 0x55#8, 0xFF#8, 0x55#8, 0x01#8, 0x00#8, 0xFF#8] = some [[0x00#8]] ∧
    decodeStream false [0xFF#8, 0x55#8, 0xFF#8, 0x55#8, 0x01#8, 0x00#8, 0xFF#8] = some [] := by decide
/-- The events of V16 and of V22, and none in S1. -/
theorem test_stream_events :
    eventsStream true [0xFF#8, 0x55#8, 0x01#8, 0x00#8, 0xFE#8, 0xFF#8, 0x55#8, 0x01#8, 0x00#8, 0xFF#8] =
      some [.checksumMismatch 0xFE#8] ∧
    eventsStream true [0xFF#8, 0x55#8, 0xFF#8, 0x55#8, 0x01#8, 0x00#8, 0xFF#8] =
      some [.oversizeLength 0xFF#8] ∧
    eventsStream true [0xFF#8, 0x55#8, 0x01#8, 0x00#8, 0xFF#8] = some [] := by decide
theorem test_reset_memory_wf : State.reset.rx.buf.wf = true ∧ State.reset.tx.buf.wf = true := by decide
theorem test_memory_wf_refuses :
    Memory.wf [(1, 0#8), (0, 0#8)] = false ∧ Memory.wf [(254, 0#8)] = false := by decide
theorem test_ports :
    (pend (deframer .seekingSync 0#8 1#8 1#8 [(0, 7#8)] [])).rxOutRead 0 = some 7#8 ∧
    (pend (deframer .seekingSync 0#8 1#8 1#8 [(0, 7#8)] [])).rxOutRead 1 = none ∧
    (encoder .sync0 1#8 0#8 [] []).txReqReady = false := by decide

/-! ### Witnesses: each states an obligation's hypotheses and meets them, at the boundaries of their ranges -/

/-- `SeekHitOpensFrame`. -/
theorem witness_seek_hit : ∃ (s : State) (rest : List Byte),
    s.env.rxIn = 0x55#8 :: rest ∧ s.rx.outValid = false ∧ s.rx.state = .seekingSync ∧
    s.rx.prevValid = true ∧ s.rx.prev = 0xFF#8 :=
  ⟨deframer .seekingSync 0xFF#8 0#8 0#8 [] [0x55#8], [], by decide⟩

/-- The hypotheses of `SeekMissSkipsByte`, each alternative alone. -/
theorem witness_seek_miss : ∃ s1 s2 s3 : State,
    (s1.env.rxIn = [0x55#8] ∧ s1.rx.outValid = false ∧ s1.rx.state = .seekingSync ∧
      s1.rx.prevValid = false) ∧
    (s2.env.rxIn = [0x55#8] ∧ s2.rx.outValid = false ∧ s2.rx.state = .seekingSync ∧
      s2.rx.prevValid = true ∧ s2.rx.prev ≠ 0xFF#8) ∧
    (s3.env.rxIn = [0xFF#8] ∧ s3.rx.outValid = false ∧ s3.rx.state = .seekingSync ∧
      s3.rx.prevValid = true ∧ s3.rx.prev = 0xFF#8) :=
  ⟨State.reset.supply [0x55#8], deframer .seekingSync 0xFE#8 0#8 0#8 [] [0x55#8],
    deframer .seekingSync 0xFF#8 0#8 0#8 [] [0xFF#8], by decide⟩

/-- `LengthByteStartsAccumulation`, at both ends of the range of a length. -/
theorem witness_len_ok : ∀ b ∈ [0#8, 254#8], ∃ (s : State) (rest : List Byte),
    s.env.rxIn = b :: rest ∧ s.rx.outValid = false ∧ s.rx.state = .awaitingLength ∧ b.toNat ≤ 254 :=
  fun b hb => ⟨deframer .awaitingLength 0x55#8 0#8 0#8 [] [b], [], rfl, rfl, rfl, by
    revert b; decide⟩

/-- `OversizeLengthIsRejected`. -/
theorem witness_len_oversize : ∃ (s : State) (rest : List Byte),
    s.env.rxIn = 0xFF#8 :: rest ∧ s.rx.outValid = false ∧ s.rx.state = .awaitingLength :=
  ⟨deframer .awaitingLength 0x55#8 0#8 0#8 [] [0xFF#8], [], by decide⟩

/-- `DataByteIsStoredAtCursor`, at the first and the last index of the buffer. -/
theorem witness_data : ∃ s1 s2 : State,
    (s1.env.rxIn = [0xFF#8] ∧ s1.rx.outValid = false ∧ s1.rx.state = .accumulating ∧
      s1.rx.cursor = 0#8 ∧ s1.rx.cursor.toNat < s1.rx.len.toNat ∧ s1.rx.len.toNat ≤ 254) ∧
    (s2.env.rxIn = [0xFF#8] ∧ s2.rx.outValid = false ∧ s2.rx.state = .accumulating ∧
      s2.rx.cursor = 253#8 ∧ s2.rx.cursor.toNat < s2.rx.len.toNat ∧ s2.rx.len.toNat ≤ 254) :=
  ⟨deframer .accumulating 1#8 1#8 0#8 [] [0xFF#8], deframer .accumulating 0#8 254#8 253#8 [] [0xFF#8],
    by decide⟩

/-- `GoodChecksumDeliversPayload`, with the empty payload and with a sum of 256. -/
theorem witness_csum_ok : ∃ (s1 s2 : State),
    (s1.env.rxIn = [0x00#8] ∧ s1.rx.outValid = false ∧ s1.rx.state = .accumulating ∧
      s1.rx.cursor = s1.rx.len ∧ memRange s1.rx.buf 0 s1.rx.len.toNat = .ok [] ∧
      (s1.rx.len.toNat + byteSum [] + (0x00#8).toNat) % 256 = 0) ∧
    (s2.env.rxIn = [0x00#8] ∧ s2.rx.outValid = false ∧ s2.rx.state = .accumulating ∧
      s2.rx.cursor = s2.rx.len ∧ memRange s2.rx.buf 0 s2.rx.len.toNat = .ok [0xFF#8] ∧
      (s2.rx.len.toNat + byteSum [0xFF#8] + (0x00#8).toNat) % 256 = 0) :=
  ⟨deframer .accumulating 0#8 0#8 0#8 [] [0x00#8],
    deframer .accumulating 0xFF#8 1#8 1#8 [(0, 0xFF#8)] [0x00#8], by decide⟩

/-- `BadChecksumDropsPayload`. -/
theorem witness_csum_fail : ∃ s : State,
    s.env.rxIn = [0xFE#8] ∧ s.rx.outValid = false ∧ s.rx.state = .accumulating ∧
    s.rx.cursor = s.rx.len ∧ memRange s.rx.buf 0 s.rx.len.toNat = .ok [0x00#8] ∧
    (s.rx.len.toNat + byteSum [0x00#8] + (0xFE#8).toNat) % 256 ≠ 0 :=
  ⟨deframer .accumulating 0#8 1#8 1#8 [(0, 0x00#8)] [0xFE#8], by decide⟩

/-- `TakeReleasesPayload`; also `PendingPayloadIsStable`, with a TX operation. -/
theorem witness_pending : ∃ s : State, s.rx.outValid = true ∧ ∃ t, exec .txSync0 s = .next t :=
  ⟨pend (encoder .sync0 0#8 0#8 [] []), by decide, _, rfl⟩

/-- States in which each byte-consuming operation runs. -/
theorem witness_byte_operations :
    (∃ t, exec (.rxSeekHit 0x55#8) (deframer .seekingSync 0xFF#8 0#8 0#8 [] [0x55#8]) = .next t) ∧
    (∃ t, exec (.rxSeekMiss 0x00#8) (deframer .seekingSync 0xFF#8 0#8 0#8 [] [0x00#8]) = .next t) ∧
    (∃ t, exec (.rxLenOk 254#8) (deframer .awaitingLength 0x55#8 0#8 0#8 [] [254#8]) = .next t) ∧
    (∃ t, exec (.rxLenOversize 0xFF#8) (deframer .awaitingLength 0x55#8 0#8 0#8 [] [0xFF#8]) = .next t) ∧
    (∃ t, exec (.rxData 0x00#8) (deframer .accumulating 254#8 254#8 253#8 [] [0x00#8]) = .next t) ∧
    (∃ t, exec (.rxCsumOk 0x00#8) (deframer .accumulating 0#8 0#8 0#8 [] [0x00#8]) = .next t) ∧
    ∃ t, exec (.rxCsumFail 0x01#8) (deframer .accumulating 0#8 0#8 0#8 [] [0x01#8]) = .next t :=
  ⟨⟨_, rfl⟩, ⟨_, rfl⟩, ⟨_, rfl⟩, ⟨_, rfl⟩, ⟨_, rfl⟩, ⟨_, rfl⟩, ⟨_, rfl⟩⟩

/-- `RequestIsLatched`, for the shortest and the longest payload; also `OneRequestOneFrame`. -/
theorem witness_tx_req : ∀ n ∈ [0, 254], ∃ (s : State) (p : Payload),
    s.env.requests = [p] ∧ s.tx.state = .idle ∧ p.length = n ∧ p.length ≤ 254 :=
  fun n hn => ⟨encoder .idle 0#8 0#8 [] [List.replicate n 0#8], List.replicate n 0#8, rfl, rfl,
    List.length_replicate, by rw [List.length_replicate]; revert n; decide⟩

/-- `OversizeRequestIsDiscarded`. -/
theorem witness_tx_req_oversize : ∃ (s : State) (p : Payload),
    s.env.requests = [p] ∧ s.tx.state = .idle ∧ p.length = 255 :=
  ⟨encoder .idle 0#8 0#8 [] [longRequest], longRequest, rfl, rfl, longRequest_length⟩

/-- The states of the emit operations: `FirstSyncByteIsPushed` to `ChecksumBytePushed`, the data operation
at the last index, the check value of the empty payload and of a sum of 256. -/
theorem witness_emit :
    (encoder .sync0 0#8 0#8 [] []).tx.state = .sync0 ∧
    (encoder .sync1 0#8 0#8 [] []).tx.state = .sync1 ∧
    (encoder .len 0#8 0#8 [] []).tx.state = .len ∧
    (∃ s : State, s.tx.state = .data ∧ s.tx.cursor.toNat < s.tx.len.toNat ∧ s.tx.len.toNat ≤ 254 ∧
      s.tx.cursor = 253#8 ∧ s.tx.buf.read s.tx.cursor.toNat = some 0xFF#8) ∧
    (∃ s : State, s.tx.state = .csum ∧ memRange s.tx.buf 0 s.tx.len.toNat = .ok []) ∧
    ∃ s : State, s.tx.state = .csum ∧ memRange s.tx.buf 0 s.tx.len.toNat = .ok [0xFF#8] :=
  ⟨rfl, rfl, rfl, ⟨encoder .data 254#8 253#8 [(253, 0xFF#8)] [], by decide⟩,
    ⟨encoder .csum 0#8 0#8 [] [], by decide⟩, ⟨encoder .csum 1#8 1#8 [(0, 0xFF#8)] [], by decide⟩⟩

/-- `EncoderOperationsFrame`: states in which each TX operation runs. -/
theorem witness_tx_operations :
    (∃ t, exec (.txReq [0x01#8]) (encoder .idle 0#8 0#8 [] [[0x01#8]]) = .next t) ∧
    (∃ t, exec (.txReqOversize 0xFF#8) (encoder .idle 0#8 0#8 [] [longRequest]) = .next t) ∧
    (∃ t, exec .txSync0 (encoder .sync0 0#8 0#8 [] []) = .next t) ∧
    (∃ t, exec .txSync1 (encoder .sync1 0#8 0#8 [] []) = .next t) ∧
    (∃ t, exec .txLen (encoder .len 0#8 0#8 [] []) = .next t) ∧
    (∃ t, exec .txData (encoder .data 1#8 0#8 [(0, 1#8)] []) = .next t) ∧
    ∃ t, exec .txCsum (encoder .csum 1#8 1#8 [(0, 1#8)] []) = .next t :=
  ⟨⟨_, rfl⟩, ⟨_, by
      simp only [exec, execTxReqOversize, requested, encoder, if_pos, longRequest_length]; rfl⟩,
    ⟨_, rfl⟩, ⟨_, rfl⟩, ⟨_, rfl⟩, ⟨_, rfl⟩, ⟨_, rfl⟩⟩

/-- `FrameAppearsOnInput` and `OneFrameFormat`, for the shortest and the longest payload. -/
theorem witness_frame : ∀ n ∈ [0, 254], ∃ p : Payload, p.length = n ∧ p.length ≤ 254 :=
  fun n hn => ⟨List.replicate n 0#8, List.length_replicate, by rw [List.length_replicate]; revert n; decide⟩

/-- `ReceiveSelectionTable`: a pending view, a free one, and one with the cursor past the length. -/
theorem witness_selection : ∃ v1 v2 v3 : RxView,
    v1.outValid = true ∧ v2.outValid = false ∧
    (v3.outValid = false ∧ v3.state = .accumulating ∧ v3.len.toNat < v3.cursor.toNat) :=
  ⟨{ seekingFresh with outValid := true }, seekingFresh, accumulatingView 2#8 [0#8], by decide⟩

/-- `StepRunsTheSelectedOperation`. -/
theorem witness_step_runs : ∃ (s : State) (m : Moment) (ms : List Moment) (w : Presented) (i : Instr),
    s.env.agenda = m :: ms ∧ m.rst = false ∧ presented m.turn (s.withAgenda ms) = some w ∧
    decode w = .ok i :=
  ⟨(deframer .seekingSync 0xFF#8 0#8 0#8 [] [0x55#8]).withAgenda [⟨false, .rx⟩], ⟨false, .rx⟩, [], _,
    .rxSeekHit 0x55#8, rfl, rfl, rfl, by decide⟩

/-- `EnabledOperationsCanBeScheduled`. -/
theorem witness_can_be_scheduled : ∃ (i : Instr) (s t : State), i ≠ .reset ∧ exec i s = .next t :=
  ⟨.txData, encoder .data 1#8 0#8 [(0, 1#8)] [], _, by decide, rfl⟩

/-- `ResetTakesPriority`: a reset at a moment at which a byte could be consumed. -/
theorem witness_reset_priority : ∃ s : State,
    s.env.agenda = { rst := true, turn := .rx } :: [] ∧ s.env.rxIn = [0x55#8] :=
  ⟨(deframer .seekingSync 0xFF#8 0#8 0#8 [] [0x55#8]).withAgenda [⟨true, .rx⟩], by decide⟩

/-- `DisabledAgentsWait`: the empty schedule, and every reason to wait. -/
theorem witness_waits :
    State.reset.env.agenda = [] ∧
    (∃ s : State, s.env.agenda = [⟨false, .rx⟩] ∧ s.env.rxIn = []) ∧
    (∃ s : State, s.env.agenda = [⟨false, .rx⟩] ∧ s.env.rxIn = [0x55#8] ∧ s.rx.outValid = true) ∧
    (∃ s : State, s.env.agenda = [⟨false, .take⟩] ∧ s.rx.outValid = false) ∧
    (∃ s : State, s.env.agenda = [⟨false, .request⟩] ∧ s.env.requests = []) ∧
    (∃ s : State, s.env.agenda = [⟨false, .request⟩] ∧ s.tx.state ≠ .idle ∧
      ∃ p rest, s.env.requests = p :: rest ∧ p.length ≤ 255) ∧
    ∃ s : State, s.env.agenda = [⟨false, .sink⟩] ∧ s.tx.state = .idle :=
  ⟨rfl, ⟨State.reset.withAgenda [⟨false, .rx⟩], by decide⟩,
    ⟨(pend (deframer .seekingSync 0xFF#8 0#8 0#8 [] [0x55#8])).withAgenda [⟨false, .rx⟩], by decide⟩,
    ⟨State.reset.withAgenda [⟨false, .take⟩], by decide⟩,
    ⟨State.reset.withAgenda [⟨false, .request⟩], by decide⟩,
    ⟨(encoder .data 1#8 0#8 [] [longRequest]).withAgenda [⟨false, .request⟩], rfl, by decide, longRequest, [],
      rfl, by rw [longRequest_length]⟩,
    ⟨State.reset.withAgenda [⟨false, .sink⟩], by decide⟩⟩

/-- `SurroundingsOfferInputs`: a half frame on the wire, and the longest request the port carries. -/
theorem witness_offers :
    (∃ s : State, s.env.agenda = [⟨false, .wire [0xFF#8, 0x55#8]⟩]) ∧
    ∃ (s : State) (p : Payload), p.length = 255 ∧ s.env.agenda = [⟨false, .present p⟩] :=
  ⟨⟨State.reset.withAgenda [⟨false, .wire [0xFF#8, 0x55#8]⟩], rfl⟩,
    State.reset.withAgenda [⟨false, .present longRequest⟩], longRequest, longRequest_length, rfl⟩

/-- `NoStepWithoutGuard`: nothing pending, a byte while pending, another byte than the one available, each byte
operation outside its row (in the right state with the neighbouring byte or cursor, where there is one). -/
theorem witness_no_step_rx :
    State.reset.rx.outValid = false ∧
    ((pend (deframer .seekingSync 0#8 0#8 0#8 [] [0x55#8])).rx.outValid = true ∧
      rxOperand (.rxSeekMiss 0x55#8) = some 0x55#8) ∧
    (deframer .seekingSync 0#8 0#8 0#8 [] [0x55#8]).env.rxIn.head? ≠ some 0x54#8 ∧
    (∃ s : State, s.rx.state = .seekingSync ∧ s.rx.prevValid = true ∧ s.rx.prev ≠ 0xFF#8) ∧
    (∃ s : State, s.rx.state = .seekingSync ∧ s.rx.prevValid = true ∧ s.rx.prev = 0xFF#8) ∧
    (∃ s : State, s.rx.state = .awaitingLength ∧ ¬(255#8).toNat ≤ 254 ∧ 254#8 ≠ 0xFF#8) ∧
    (∃ s : State, s.rx.state = .accumulating ∧ s.rx.cursor = s.rx.len) ∧
    (∃ s : State, s.rx.state = .accumulating ∧ s.rx.cursor.toNat < s.rx.len.toNat) ∧
    ∃ s : State, s.rx.state = .accumulating ∧ s.rx.cursor = s.rx.len ∧
      memRange s.rx.buf 0 s.rx.len.toNat = .ok [0x00#8] ∧
      (s.rx.len.toNat + byteSum [0x00#8] + (0xFE#8).toNat) % 256 ≠ 0 ∧
      (s.rx.len.toNat + byteSum [0x00#8] + (0xFF#8).toNat) % 256 = 0 :=
  ⟨rfl, by decide, by decide, ⟨deframer .seekingSync 0xFE#8 0#8 0#8 [] [0x55#8], by decide⟩,
    ⟨deframer .seekingSync 0xFF#8 0#8 0#8 [] [0x55#8], by decide⟩,
    ⟨deframer .awaitingLength 0x55#8 0#8 0#8 [] [255#8], by decide⟩,
    ⟨deframer .accumulating 0#8 1#8 1#8 [] [0#8], by decide⟩,
    ⟨deframer .accumulating 0#8 254#8 253#8 [] [0#8], by decide⟩,
    ⟨deframer .accumulating 0#8 1#8 1#8 [(0, 0x00#8)] [0xFE#8], by decide⟩⟩

/-- `NoStepWithoutGuard`: a busy encoder, no request presented, a request of another length, a request and a
frame one byte too long, and an encoder outside every emit state. -/
theorem witness_no_step_tx :
    (encoder .csum 0#8 0#8 [] [[]]).tx.state ≠ .idle ∧
    State.reset.env.requests.head? ≠ some [] ∧
    (∀ p : Payload, (encoder .idle 0#8 0#8 [] [[]]).env.requests.head? = some p → p.length ≠ (255#8).toNat) ∧
    (254 < longRequest.length ∧ (254#8).toNat ≤ 254) ∧
    (State.reset.tx.state ≠ .sync0 ∧ State.reset.tx.state ≠ .sync1 ∧ State.reset.tx.state ≠ .len ∧
      State.reset.tx.state ≠ .data ∧ State.reset.tx.state ≠ .csum) := by
  refine ⟨by decide, by decide, fun p hp => ?_, ⟨by rw [longRequest_length]; decide, by decide⟩, by decide⟩
  cases hp
  decide

/-- `TransmitSelectionTable`, the four cases that select nothing. -/
theorem witness_tx_selection :
    (255 < (0#8 :: longRequest).length ∧ longRequest.length ≤ 255) ∧
    (txView .csum 0#8).state ≠ .idle ∧ (txView .idle 0#8).state = .idle ∧
    ((txView .data 0#8).state = .data ∧ (txView .data 0#8).len.toNat ≤ (txView .data 0#8).cursor.toNat) := by
  refine ⟨⟨?_, by rw [longRequest_length]⟩, by decide, rfl, by decide⟩
  rw [List.length_cons, longRequest_length]
  decide

/-- `FrameFormatReadsBack`, second part: a frame with bytes behind it (V26). -/
theorem witness_frame_reads :
    decodeFrame [0xFF#8, 0x55#8, 0x02#8, 0x00#8, 0x05#8, 0xF9#8, 0xAA#8] = .ok ([0x00#8, 0x05#8], [0xAA#8]) := by
  decide

/-- `EventCodeTellsTheCause`: a step that raises an event, one of each code. -/
theorem witness_events :
    (∃ t, exec (.rxCsumFail 0x01#8) (deframer .accumulating 0#8 0#8 0#8 [] [0x01#8]) = .next t ∧
      t.raisedEvents = [] ++ [.checksumMismatch 0x01#8]) ∧
    (∃ t, exec (.rxLenOversize 0xFF#8) (deframer .awaitingLength 0x55#8 0#8 0#8 [] [0xFF#8]) = .next t ∧
      t.raisedEvents = [] ++ [.oversizeLength 0xFF#8]) ∧
    ∃ t, exec (.txReqOversize 0xFF#8) (encoder .idle 0#8 0#8 [] [longRequest]) = .next t ∧
      t.raisedEvents = [] ++ [.txOversize 0xFF#8] :=
  ⟨⟨_, rfl, rfl⟩, ⟨_, rfl, rfl⟩, _, by
      simp only [exec, execTxReqOversize, requested, encoder, if_pos, longRequest_length]; rfl, rfl⟩

/-- `BufferPrimitives`: the indices on both sides of the capacity. -/
theorem witness_buffer : (253 ≤ 253 ∧ 253 < 254) ∧
    memWrite [] 254 0#8 = .error .outOfRange ∧ memWrite [] 253 7#8 = .ok [(253, 7#8)] := by decide

/-- `RuledOutStatesFault`, each clause: cursor one past the length (also on the schedule), cursor 254 below
a length of 255, and an encoder cursor at the length. -/
theorem witness_ruled_out :
    (∃ s : State, s.env.rxIn = [0#8] ∧ s.rx.outValid = false ∧ s.rx.state = .accumulating ∧
      s.rx.len.toNat < s.rx.cursor.toNat ∧ s.env.agenda = [⟨false, .rx⟩]) ∧
    (∃ s : State, s.env.rxIn = [0#8] ∧ s.rx.outValid = false ∧ s.rx.state = .accumulating ∧
      s.rx.cursor.toNat < s.rx.len.toNat ∧ 253 < s.rx.cursor.toNat) ∧
    ∃ s : State, s.tx.state = .data ∧ s.tx.len.toNat ≤ s.tx.cursor.toNat :=
  ⟨⟨(deframer .accumulating 0#8 0#8 1#8 [] [0#8]).withAgenda [⟨false, .rx⟩], by decide⟩,
    ⟨deframer .accumulating 0#8 255#8 254#8 [] [0#8], by decide⟩,
    ⟨encoder .data 0#8 0#8 [] [], by decide⟩⟩

theorem test_cursor_past_length_faults :
    faultOf (exec (.rxData 0#8) (deframer .accumulating 0#8 0#8 1#8 [] [0#8])) =
      some .rxCursorPastLength := by decide
theorem test_tx_cursor_faults :
    faultOf (exec .txData (encoder .data 0#8 0#8 [] [])) = some .txCursorPastLength := by decide

/-! Two states with the invariants: one in the middle of a frame on both halves, one with a payload pending. -/

/-- V6's frame after its first data byte, and V4's after its first, with a byte and a turn of RX to come. -/
def midFrame : State :=
  { rx := { state := .accumulating, prevValid := true, prev := 0x04#8, len := 4#8, cursor := 1#8,
            buf := [(0, 0x04#8)], outValid := false },
    tx := { state := .data, len := 2#8, cursor := 1#8, buf := [(0, 0x00#8), (1, 0x05#8)] },
    env := { rxIn := [0x00#8], requests := [], agenda := [⟨false, .rx⟩] },
    trace := [.consumed 0xFF#8, .consumed 0x55#8, .consumed 0x04#8, .consumed 0x04#8,
              .accepted [0x00#8, 0x05#8], .pushed 0xFF#8, .pushed 0x55#8, .pushed 0x02#8, .pushed 0x00#8],
    freeNext := 0 }

/-- S1 with its payload pending and a further byte withheld, and V4's frame before its length byte. -/
def pendingFrame : State :=
  { rx := { state := .seekingSync, prevValid := true, prev := 0xFF#8, len := 1#8, cursor := 1#8,
            buf := [(0, 0x00#8)], outValid := true },
    tx := { state := .len, len := 2#8, cursor := 0#8, buf := [(0, 0x00#8), (1, 0x05#8)] },
    env := { rxIn := [0x41#8], requests := [], agenda := [⟨false, .take⟩] },
    trace := [.consumed 0xFF#8, .consumed 0x55#8, .consumed 0x01#8, .consumed 0x00#8, .consumed 0xFF#8,
              .delivered [0x00#8], .accepted [0x00#8, 0x05#8], .pushed 0xFF#8, .pushed 0x55#8],
    freeNext := 0 }

/-- `StepKeepsInvariants` and `StepNeverStops` on both halves. -/
theorem witness_mid_frame : Inv midFrame ∧ Admitted midFrame ∧ ∃ t, step midFrame = .next t := by
  refine ⟨⟨?_, ?_, ?_, ?_, ?_, ?_, ?_, ?_, ?_, ?_, ?_⟩, ⟨?_, ?_⟩, _, rfl⟩
  · exact fun _ => by decide
  · exact fun h => by cases h
  · exact fun _ => ⟨[], [0x04#8], by decide, by decide⟩
  · exact fun h => by cases h
  · exact fun _ => by decide
  · exact fun h => by cases h
  · exact fun _ => by decide
  · exact fun _ => ⟨[0x00#8, 0x05#8], by decide, by decide, by decide, by decide⟩
  · exact fun _ => by decide
  · exact ⟨by decide, by decide⟩
  · exact fun p hp => by simp [State.deliveredPayloads, midFrame, Obs.delivered?] at hp
  · exact fun p hp => by simp [midFrame] at hp
  · intro m hm p hp
    simp only [midFrame, List.mem_singleton] at hm
    subst hm
    cases hp

/-- `ReadPortPresentsDelivery` with a payload pending (with nothing pending: `midFrame`); `LengthBytePushed`
in a state with the invariants. -/
theorem witness_pending_frame : Inv pendingFrame ∧ pendingFrame.rx.outValid = true ∧
    midFrame.rx.outValid = false ∧ pendingFrame.tx.state = .len := by
  refine ⟨⟨?_, ?_, ?_, ?_, ?_, ?_, ?_, ?_, ?_, ?_, ?_⟩, rfl, rfl, rfl⟩
  · exact fun h => by cases h
  · exact fun _ => by decide
  · exact fun h => by cases h
  · exact fun h => by cases h
  · exact fun _ => by decide
  · exact fun _ => ⟨[0x00#8], by decide, by decide⟩
  · exact fun h => by cases h
  · exact fun _ => ⟨[0x00#8, 0x05#8], by decide, by decide, by decide, by decide⟩
  · exact fun h => absurd rfl h
  · exact ⟨by decide, by decide⟩
  · intro p hp
    have : [0x00#8] = p := by simpa [State.deliveredPayloads, pendingFrame, Obs.delivered?] using hp
    subst this
    exact ⟨[], [], by decide⟩

/-- `NoResynchronisationInsideFrame`, each clause. -/
theorem witness_no_resync :
    (∃ t, exec (.rxSeekHit 0x55#8) (deframer .seekingSync 0xFF#8 0#8 0#8 [] [0x55#8]) = .next t ∧
      t.rx.state = .awaitingLength) ∧
    (∃ t, exec (.rxCsumOk 0x00#8) (deframer .accumulating 0#8 0#8 0#8 [] [0x00#8]) = .next t ∧
      t.rx.state ≠ .accumulating) ∧
    ∃ t, exec (.rxLenOk 0#8) (deframer .awaitingLength 0x55#8 0#8 0#8 [] [0#8]) = .next t ∧
      t.rx.state ≠ .awaitingLength :=
  ⟨⟨_, rfl, rfl⟩, ⟨_, rfl, by decide⟩, ⟨_, rfl, by decide⟩⟩

/-- `HalvesCommute`, in both orders, with an RX error and a pushed byte. -/
theorem witness_halves :
    let s : State := { deframer .awaitingLength 0x55#8 0#8 0#8 [] [0xFF#8] with
                       tx := (encoder .sync0 0#8 0#8 [] []).tx }
    isRx (.rxLenOversize 0xFF#8) = true ∧ isTx .txSync0 = true ∧
    (∃ t u, exec (.rxLenOversize 0xFF#8) s = .next t ∧ exec .txSync0 t = .next u) ∧
    ∃ t u, exec .txSync0 s = .next t ∧ exec (.rxLenOversize 0xFF#8) t = .next u :=
  ⟨rfl, rfl, ⟨_, _, rfl, rfl⟩, ⟨_, _, rfl, rfl⟩⟩

/-- `PushedByteIsOnPort` and `AtMostOneEventPerStep`: an operation that pushes, and one that does neither. -/
theorem witness_pushes :
    (∃ t, exec .txLen (encoder .len 254#8 0#8 [] []) = .next t) ∧
    ∃ t, exec (.rxSeekMiss 0#8) (deframer .seekingSync 0#8 0#8 0#8 [] [0#8]) = .next t :=
  ⟨⟨_, rfl⟩, ⟨_, rfl⟩⟩

/-- `SingleByteErrorIsDetected` (V34), with both kinds of change. -/
theorem witness_single_byte :
    csumOk 4#8 ([0x04#8, 0x00#8] ++ [0x26#8] ++ [0x01#8]) 0xD1#8 = true ∧
    (0x26#8 ≠ 0x27#8 ∧ csumOk 4#8 ([0x04#8, 0x00#8] ++ [0x27#8] ++ [0x01#8]) 0xD1#8 = false) ∧
    (0xD1#8 ≠ 0xD0#8 ∧ csumOk 4#8 ([0x04#8, 0x00#8] ++ [0x26#8] ++ [0x01#8]) 0xD0#8 = false) := by decide

/-- `MachineRefinesReceiveFunction`, both directions; `StreamsAreInOrder`, a byte taken (no byte available:
the second state of `witness_waits`). -/
theorem witness_refines :
    (deframer .seekingSync 0#8 0#8 0#8 [] [0xFF#8]).env.rxIn = 0xFF#8 :: [] ∧
    (∃ r o, (deframer .seekingSync 0#8 0#8 0#8 [] [0xFF#8]).rx.stepWith true 0xFF#8 = some (r, o)) ∧
    rxOperand (.rxSeekMiss 0xFF#8) = some 0xFF#8 ∧
    ∃ t, exec (.rxSeekMiss 0xFF#8) (deframer .seekingSync 0#8 0#8 0#8 [] [0xFF#8]) = .next t :=
  ⟨rfl, ⟨_, _, rfl⟩, rfl, ⟨_, rfl⟩⟩

/-- `StreamRoundTrip`, at the previous byte that could disturb it, `FF`, and at both ends of the length. -/
theorem witness_round_trip : ∀ n ∈ [0, 254], ∃ (r : Rx) (p : Payload),
    r.state = .seekingSync ∧ r.outValid = false ∧ r.prev = 0xFF#8 ∧ p.length = n ∧ p.length ≤ 254 :=
  fun n hn => ⟨(deframer .seekingSync 0xFF#8 0#8 0#8 [] []).rx, List.replicate n 0#8, rfl, rfl, rfl,
    List.length_replicate, by rw [List.length_replicate]; revert n; decide⟩

/-- `FramesWithQuietGapsDecode`: noise before V4's frame, and a gap after it (V26). -/
theorem witness_quiet_gaps :
    gapQuiet none [0x00#8, 0x55#8, 0xFF#8, 0x12#8, 0xFF#8] = true ∧
    ∀ f ∈ [([0x00#8, 0x05#8], [0xAA#8])], f.1.length ≤ 254 ∧ gapQuiet (some (csum f.1)) f.2 = true := by
  decide
/-- A gap that is not quiet: `55` after S1, whose check value is `FF` (V21). -/
theorem test_gap_not_quiet : gapQuiet (some (csum [0x00#8])) [0x55#8] = false := by decide

/-- `ResynchronisesAfterBadFrame` (V16). -/
theorem witness_resynchronises : ∃ (r : Rx) (d q : Payload),
    r.state = .seekingSync ∧ r.outValid = false ∧ d.length ≤ 254 ∧ q.length ≤ 254 ∧
    csumOk (BitVec.ofNat 8 d.length) d 0xFE#8 = false :=
  ⟨State.reset.rx, [0x00#8], [0x00#8], by decide⟩

/-- `OutstandingBytesAreSwallowed` (V17 after its two data bytes; and a frame with nothing outstanding). -/
theorem witness_swallows : ∃ (r1 r2 : Rx) (bs : List Byte),
    (r1.state = .accumulating ∧ r1.outValid = false ∧ r1.len.toNat ≤ 254 ∧
      r1.cursor.toNat + bs.length = r1.len.toNat ∧
      memRange r1.buf 0 r1.cursor.toNat = .ok [0x01#8, 0x02#8]) ∧
    (r2.state = .accumulating ∧ r2.outValid = false ∧ r2.len.toNat ≤ 254 ∧
      r2.cursor.toNat + 0 = r2.len.toNat ∧ memRange r2.buf 0 r2.cursor.toNat = .ok []) :=
  ⟨(deframer .accumulating 2#8 5#8 2#8 [(0, 1#8), (1, 2#8)] []).rx,
    (deframer .accumulating 0#8 0#8 0#8 [] []).rx, [0xFF#8, 0x55#8, 0x01#8], by decide⟩

/-- `EverySyncHitIsAccountedFor`: a hit, a length and a mismatch. -/
theorem witness_accounting : ∃ t,
    execAll [.rxSeekHit 0x55#8, .rxLenOk 0#8, .rxCsumFail 0x01#8]
      (deframer .seekingSync 0xFF#8 0#8 0#8 [] [0x55#8, 0x00#8, 0x01#8]) = .next t :=
  ⟨_, rfl⟩

/-- `OutputIsFramesOfRequests`: an empty frame, whole and cut in the middle. -/
theorem witness_output :
    (encoder .idle 0#8 0#8 [] [[]]).tx.state = .idle ∧
    (∃ t, execAll (.txReq [] :: emitOps 0) (encoder .idle 0#8 0#8 [] [[]]) = .next t ∧ t.tx.state = .idle) ∧
    ∃ t, execAll [.txReq [], .txSync0] (encoder .idle 0#8 0#8 [] [[]]) = .next t ∧ t.tx.state ≠ .idle :=
  ⟨rfl, ⟨_, rfl, rfl⟩, ⟨_, rfl, by decide⟩⟩

end Sys2Proof.Tests
end

section
/-! The buffer primitives of R31 (spec/20_memory.md), from the laws of `Memory.read` and `Memory.write`. -/
namespace Sys2Proof.Machine

/-- A `MemRead` depends on the buffer only through the byte at its index. -/
theorem memRead_congr {m m' : Memory} {i : Nat} (h : m.read i = m'.read i) :
    memRead m i = memRead m' i := by
  simp only [memRead, h]

theorem memRead_write_same (m : Memory) {i : Nat} (v : Byte) (hi : i < Config.rxCap) :
    memRead (m.write i v) i = .ok v :=
  memRead_ok.mpr ⟨hi, Memory.read_write_same m i v⟩

theorem memRead_write_other (m : Memory) {i j : Nat} (v : Byte) (h : j ≠ i) :
    memRead (m.write i v) j = memRead m j :=
  memRead_congr (Memory.read_write_other m v h)

theorem memRead_of_rxCap_le (m : Memory) {i : Nat} (h : Config.rxCap ≤ i) :
    memRead m i = .error .outOfRange :=
  if_pos h

theorem memWrite_of_rxCap_le (m : Memory) {i : Nat} (v : Byte) (h : Config.rxCap ≤ i) :
    memWrite m i v = .error .outOfRange :=
  if_pos h

/-- Settles O34: below the capacity a write is `Memory.write`, whose reads the laws of the buffers give;
from the capacity on both primitives have no answer. -/
theorem bufferPrimitives : Obligations.BufferPrimitives := by
  intro m i v
  constructor
  · intro hi
    have hcap : i < Config.rxCap := Nat.lt_succ_of_le hi
    exact ⟨m.write i v, memWrite_of_lt v hcap, memRead_write_same m v hcap,
      fun _ hj => memRead_write_other m v hj⟩
  · intro hi
    have hcap : Config.rxCap ≤ i := hi
    exact ⟨memWrite_of_rxCap_le m v hcap, memRead_of_rxCap_le m hcap, rfl⟩

end Sys2Proof.Machine
end

section
/-! The wire format R50 (spec/30_encoding.md), from the definition of `frameBytes`. -/
namespace Sys2Proof

theorem frameBytes_length (p : Payload) : (frameBytes p).length = p.length + Config.overhead := by
  simp only [frameBytes, Config.overhead, List.length_append, List.length_cons, List.length_nil]
  omega

/-- The length byte of a legal payload counts it without wrapping (R53). -/
theorem toNat_lengthByte {p : Payload} (h : p.length ≤ Config.maxLen) :
    (BitVec.ofNat 8 p.length).toNat = p.length :=
  Nat.mod_eq_of_lt (Nat.lt_of_le_of_lt h (by decide))

/-- Settles O29: the length byte does not wrap, and the four bytes beside the payload give the bounds. -/
theorem oneFrameFormat : Obligations.OneFrameFormat := by
  intro p hp
  have hlen : (frameBytes p).length = p.length + 4 := frameBytes_length p
  exact ⟨⟨BitVec.ofNat 8 p.length, csum p, toNat_lengthByte hp, rfl⟩, hlen, by omega, by omega⟩

end Sys2Proof
end

section
/-! The selection table of RX, R55 (spec/30_encoding.md): the tests its columns make, what `decodeRx` answers in
each state, and the rows as one equivalence, `decodeRx_ok_iff`. -/
namespace Sys2Proof

theorem syncHit_iff {prevValid : Bool} {prev b : Byte} :
    syncHit prevValid prev b = true ↔ prevValid = true ∧ prev = 0xFF#8 ∧ b = 0x55#8 := by
  simp only [syncHit, Config.sync0, Config.sync1, Bool.and_eq_true, beq_iff_eq, and_assoc]

theorem csumOk_iff {len : Byte} {d : Payload} {c : Byte} :
    csumOk len d c = true ↔ (len.toNat + byteSum d + c.toNat) % 256 = 0 :=
  beq_iff_eq

/-- `FF` is the one length byte above the capacity of the receive buffer (R53). -/
theorem rxCap_lt_toNat_iff {b : Byte} : Config.rxCap < b.toNat ↔ b = 0xFF#8 := by
  simp only [Config.rxCap]
  bv_omega

section
variable {v : RxView} {b : Byte} {i : Instr}

theorem decodeRx_pending (hv : v.outValid = true) : decodeRx v b = .error .payloadPending :=
  if_pos hv

theorem decodeRx_seekingSync (hv : v.outValid = false) (hs : v.state = .seekingSync) :
    decodeRx v b = .ok (if syncHit v.prevValid v.prev b then .rxSeekHit b else .rxSeekMiss b) := by
  simp only [decodeRx, hv, hs, Bool.false_eq_true, if_false, apply_ite Except.ok]

theorem decodeRx_awaitingLength (hv : v.outValid = false) (hs : v.state = .awaitingLength) :
    decodeRx v b = .ok (if b.toNat ≤ Config.rxCap then .rxLenOk b else .rxLenOversize b) := by
  simp only [decodeRx, hv, hs, Bool.false_eq_true, if_false, apply_ite Except.ok]

theorem decodeRx_data (hv : v.outValid = false) (hs : v.state = .accumulating)
    (hc : v.cursor.toNat < v.len.toNat) : decodeRx v b = .ok (.rxData b) := by
  simp only [decodeRx, hv, hs, hc, Bool.false_eq_true, if_false, if_true]

theorem decodeRx_cursorPastLength (hv : v.outValid = false) (hs : v.state = .accumulating)
    (hc : v.len.toNat < v.cursor.toNat) : decodeRx v b = .error .rxCursorPastLength := by
  simp only [decodeRx, hv, hs, hc, hc.not_gt, Bool.false_eq_true, if_false, if_true]

theorem decodeRx_checksum {d : Payload} (hv : v.outValid = false) (hs : v.state = .accumulating)
    (hc : v.cursor = v.len) (hd : v.data = .ok d) :
    decodeRx v b = .ok (if csumOk v.len d b then .rxCsumOk b else .rxCsumFail b) := by
  simp only [decodeRx, hv, hs, hc, hd, lt_irrefl, Bool.false_eq_true, if_false, apply_ite Except.ok]

theorem decodeRx_unreadable {e : BufErr} (hv : v.outValid = false) (hs : v.state = .accumulating)
    (hc : v.cursor = v.len) (hd : v.data = .error e) :
    decodeRx v b = .error (.unreadableData e) := by
  simp only [decodeRx, hv, hs, hc, hd, lt_irrefl, Bool.false_eq_true, if_false]

/-- The three positions of the cursor in a frame that R55 tells apart. -/
theorem RxView.cursor_cases (v : RxView) :
    v.cursor.toNat < v.len.toNat ∨ v.cursor = v.len ∨ v.len.toNat < v.cursor.toNat := by
  rw [← BitVec.toNat_inj]
  exact lt_trichotomy _ _

/-- R55 as a whole: with no payload pending, the operations selected for the byte `b`, a disjunct for each row. -/
theorem decodeRx_ok_iff (hv : v.outValid = false) : decodeRx v b = .ok i ↔
    (v.state = .seekingSync ∧
      (syncHit v.prevValid v.prev b = true ∧ .rxSeekHit b = i ∨
        ¬syncHit v.prevValid v.prev b = true ∧ .rxSeekMiss b = i)) ∨
    (v.state = .awaitingLength ∧
      (b.toNat ≤ Config.rxCap ∧ .rxLenOk b = i ∨ ¬b.toNat ≤ Config.rxCap ∧ .rxLenOversize b = i)) ∨
    (v.state = .accumulating ∧
      (v.cursor.toNat < v.len.toNat ∧ .rxData b = i ∨
        v.cursor = v.len ∧ ∃ d, v.data = .ok d ∧
          (csumOk v.len d b = true ∧ .rxCsumOk b = i ∨ ¬csumOk v.len d b = true ∧ .rxCsumFail b = i))) := by
  cases hs : v.state with
  | seekingSync =>
    rw [decodeRx_seekingSync hv hs, Except.ok.injEq, ite_eq_iff]
    simp only [true_and, false_and, or_false, reduceCtorEq]
  | awaitingLength =>
    rw [decodeRx_awaitingLength hv hs, Except.ok.injEq, ite_eq_iff]
    simp only [true_and, false_and, or_false, false_or, reduceCtorEq]
  | accumulating =>
    simp only [true_and, false_and, false_or, reduceCtorEq]
    rcases v.cursor_cases with hc | hc | hc
    · simp [decodeRx_data hv hs hc, hc, ← BitVec.toNat_inj, hc.ne]
    · cases hd : v.data with
      | error e => simp [decodeRx_unreadable hv hs hc hd, hc]
      | ok d =>
        rw [decodeRx_checksum hv hs hc hd, Except.ok.injEq, ite_eq_iff]
        simp [hc]
    · simp [decodeRx_cursorPastLength hv hs hc, hc.not_gt, ← BitVec.toNat_inj, hc.ne']

/-- Every row of R55 consumes exactly the byte presented. -/
theorem rxOperand_of_decodeRx (hv : v.outValid = false) (h : decodeRx v b = .ok i) :
    Machine.rxOperand i = some b := by
  rcases (decodeRx_ok_iff hv).mp h with ⟨-, ⟨-, rfl⟩ | ⟨-, rfl⟩⟩ | ⟨-, ⟨-, rfl⟩ | ⟨-, rfl⟩⟩ |
    ⟨-, ⟨-, rfl⟩ | ⟨-, d, -, ⟨-, rfl⟩ | ⟨-, rfl⟩⟩⟩ <;> rfl

end

/-- RX.TAKE is selected exactly with a payload pending (R79). -/
theorem decode_take_iff {outValid : Bool} : decode (.take outValid) = .ok .rxTake ↔ outValid = true := by
  cases outValid <;> simp [decode]

/-- Settles O20: each clause is the disjunct of its row in `decodeRx_ok_iff`. -/
theorem receiveSelectionTable : Obligations.ReceiveSelectionTable := by
  intro v b
  refine ⟨decodeRx_pending, decode_take_iff, fun hv => ?_⟩
  simp only [decode]
  refine ⟨?_, ?_, ?_, ?_, ?_, ?_, ?_, decodeRx_cursorPastLength hv, fun _ => rxOperand_of_decodeRx hv⟩
  · simp [decodeRx_ok_iff hv, syncHit_iff]
  · simp [decodeRx_ok_iff hv, syncHit_iff]
  · simp [decodeRx_ok_iff hv, Config.rxCap]
  · simp [decodeRx_ok_iff hv, rxCap_lt_toNat_iff]
  · simp [decodeRx_ok_iff hv]
  · simp [decodeRx_ok_iff hv, csumOk_iff]
  · simp [decodeRx_ok_iff hv, csumOk_iff]

end Sys2Proof
end


section
/-! `RX.SEEK.MISS`, R73 (spec/40_deframer.md): when a byte completes no sync pair, what it then writes, and the step of
an enabled miss. -/
namespace Sys2Proof

/-- The three ways in which a byte is a miss (R70, R73). -/
theorem syncHit_eq_false_iff {prevValid : Bool} {prev b : Byte} :
    syncHit prevValid prev b = false ↔ prevValid = false ∨ prev ≠ 0xFF#8 ∨ b ≠ 0x55#8 := by
  simp only [← Bool.not_eq_true, syncHit_iff, not_and_or, ne_eq]

namespace Machine

/-- A miss writes the previous byte and its valid bit alone, under both values of `RX_PREV_CARRY` (R71). -/
theorem Rx.seekMiss_eq (c : Bool) (b : Byte) (r : Rx) :
    r.seekMiss c b = { r with prev := b, prevValid := true } := by
  cases c <;> rfl

theorem execRxSeekMiss_eq {s : State} {b : Byte} {rest : List Byte} (hin : s.env.rxIn = b :: rest)
    (hov : s.rx.outValid = false) (hst : s.rx.state = .seekingSync)
    (hmiss : syncHit s.rx.prevValid s.rx.prev b = false) :
    execRxSeekMiss b s = .next { s.popped b rest with rx := { s.rx with prev := b, prevValid := true } } := by
  rw [execRxSeekMiss, consuming_eq _ hin hov]
  simp only [State.popped_rx, hst, hmiss, and_self, if_true, Rx.seekMiss_eq]

/-- Settles O2: each alternative makes the byte a miss, whose one step is `execRxSeekMiss_eq`. -/
theorem seekMissSkipsByte : Obligations.SeekMissSkipsByte := by
  intro s b rest hin hov hst halt
  have hmiss : syncHit s.rx.prevValid s.rx.prev b = false := syncHit_eq_false_iff.mpr halt
  exact execRxSeekMiss_eq hin hov hst hmiss

end Machine
end Sys2Proof
end


section
/-! The emit operations of TX, R93 to R97 (spec/41_encoder.md): the step of each in the state its guard asks for, and
what the registers' arithmetic gives in natural numbers. -/
namespace Sys2Proof

/-- The check value of R54 as a number: the formula ends in `mod 256`, so the byte holds its value whole. -/
theorem toNat_csumFor (len : Nat) (d : Payload) :
    (csumFor len d).toNat = (0x100 - (len + byteSum d) % 256) % 256 :=
  Nat.mod_mod _ 256

/-- A byte below another byte is advanced by one without wrapping. -/
theorem toNat_add_one_of_lt {c l : Byte} (h : c.toNat < l.toNat) : (c + 1#8).toNat = c.toNat + 1 := by
  bv_omega

theorem add_one_eq_iff_of_lt {c l : Byte} (h : c.toNat < l.toNat) :
    c + 1#8 = l ↔ c.toNat + 1 = l.toNat := by
  rw [BitVec.toNat_eq, toNat_add_one_of_lt h]

namespace Machine

theorem execTxSync0_eq {s : State} (hst : s.tx.state = .sync0) :
    execTxSync0 s = .next { s.push Config.sync0 with tx := { s.tx with state := .sync1 } } :=
  emitting_eq _ hst

theorem execTxSync1_eq {s : State} (hst : s.tx.state = .sync1) :
    execTxSync1 s = .next { s.push Config.sync1 with tx := { s.tx with state := .len } } :=
  emitting_eq _ hst

theorem execTxLen_eq {s : State} (hst : s.tx.state = .len) :
    execTxLen s = .next { s.push s.tx.len with
      tx := { s.tx with cursor := 0#8, state := if s.tx.len.toNat = 0 then .csum else .data } } := by
  have hzero : s.tx.len = 0#8 ↔ s.tx.len.toNat = 0 := BitVec.toNat_eq
  rw [execTxLen, emitting_eq _ hst]
  simp only [hzero]

theorem execTxData_eq {s : State} {v : Byte} (hst : s.tx.state = .data)
    (hlt : s.tx.cursor.toNat < s.tx.len.toNat) (hv : memRead s.tx.buf s.tx.cursor.toNat = .ok v) :
    execTxData s = .next { s.push v with
      tx := { s.tx with cursor := s.tx.cursor + 1#8,
                        state := if s.tx.cursor.toNat + 1 = s.tx.len.toNat then .csum else .data } } := by
  rw [execTxData, emitting_eq _ hst, if_pos hlt, hv]
  simp only [add_one_eq_iff_of_lt hlt]

theorem execTxCsum_eq {s : State} {d : Payload} (hst : s.tx.state = .csum)
    (hd : memRange s.tx.buf 0 s.tx.len.toNat = .ok d) :
    execTxCsum s = .next { s.push (csumFor s.tx.len.toNat d) with tx := { s.tx with state := .idle } } := by
  rw [execTxCsum, emitting_eq _ hst, hd]

/-- INV6 (R18): an encoder that is emitting holds a legal length. -/
theorem Inv.toNat_txLen_le {s : State} (h : Inv s) (hst : s.tx.state ≠ .idle) : s.tx.len.toNat ≤ 254 := by
  obtain ⟨p, -, hle, hlen, -⟩ := h.inv8 hst
  rw [hlen]
  exact hle

/-- Settles O15: a cursor below a length of at most 254 is inside the latch, so `MemRead` gives the byte there, and its
successor does not wrap. -/
theorem payloadBytePushed : Obligations.PayloadBytePushed := by
  intro s v hst hlt hlen hread
  have hcap : s.tx.cursor.toNat < Config.rxCap := Nat.lt_of_lt_of_le hlt hlen
  have hv : memRead s.tx.buf s.tx.cursor.toNat = .ok v := memRead_ok.mpr ⟨hcap, hread⟩
  exact ⟨_, execTxData_eq hst hlt hv, rfl, toNat_add_one_of_lt hlt, rfl⟩

/-- Settles O12: `SYNC0` is the constant `FF`. -/
theorem firstSyncByteIsPushed : Obligations.FirstSyncByteIsPushed :=
  fun _ => execTxSync0_eq

/-- Settles O13: `SYNC1` is the constant `55`. -/
theorem secondSyncByteIsPushed : Obligations.SecondSyncByteIsPushed :=
  fun _ => execTxSync1_eq

/-- Settles O14: the step is `execTxLen_eq`, and an encoder in `Len` is emitting, so INV6 bounds its length. -/
theorem lengthBytePushed : Obligations.LengthBytePushed := by
  intro s hst
  have hbusy : s.tx.state ≠ .idle := by simp [hst]
  exact ⟨execTxLen_eq hst, fun hinv => hinv.toNat_txLen_le hbusy⟩

/-- Settles O16: the byte is the check value of the payload the latch reads back. -/
theorem checksumBytePushed : Obligations.ChecksumBytePushed :=
  fun s d hst hd => ⟨csumFor s.tx.len.toNat d, toNat_csumFor s.tx.len.toNat d, execTxCsum_eq hst hd⟩

end Machine
end Sys2Proof
end


section
/-! The check value against the test a receiver applies (R54, R111; spec/42_stream_functions.md section 2). -/
namespace Sys2Proof

/-- The check value completes length and data to a multiple of 256, under any length number: it is what the residue of
their sum lacks of 256, and nothing where that residue is 0. -/
theorem add_byteSum_add_csumFor_mod (len : Nat) (d : Payload) :
    (len + byteSum d + (csumFor len d).toNat) % 256 = 0 := by
  rw [toNat_csumFor]
  omega

/-- Settles O46: `csum` is `csumFor` under the payload's own length, which has both properties under any length. -/
theorem checksumLaw : Obligations.ChecksumLaw :=
  fun p => ⟨toNat_csumFor p.length p, add_byteSum_add_csumFor_mod p.length p⟩

end Sys2Proof
end


section
/-! What an operation does, said once. Each half has its effects as a relation on its own registers, a constructor for
each row of the selection tables R55 and R56, and `exec_next_iff` ties all operations to them: later proofs split on
these relations and unfold no meaning. -/
namespace Sys2Proof.Machine

/-- The byte-consuming operations on the deframer's registers (R72 to R78), nothing being pending: `i` consumes the
byte `b`, leaves the registers `r'` and gives the output `o`. -/
inductive Rx.Effect (carry : Bool) (r : Rx) (b : Byte) : Instr → Rx → RxOut → Prop where
  | seekHit (hst : r.state = .seekingSync) (hhit : syncHit r.prevValid r.prev b = true) :
      Effect carry r b (.rxSeekHit b) (r.seekHit carry b) .quiet
  | seekMiss (hst : r.state = .seekingSync) (hmiss : syncHit r.prevValid r.prev b = false) :
      Effect carry r b (.rxSeekMiss b) (r.seekMiss carry b) .quiet
  | lenOk (hst : r.state = .awaitingLength) (hb : b.toNat ≤ Config.rxCap) :
      Effect carry r b (.rxLenOk b) (r.lenOk carry b) .quiet
  | lenOversize (hst : r.state = .awaitingLength) (hb : Config.rxCap < b.toNat) :
      Effect carry r b (.rxLenOversize b) (r.lenOversize carry b) (.event (.oversizeLength b))
  | data (hst : r.state = .accumulating) (hlt : r.cursor.toNat < r.len.toNat)
      (hcap : r.cursor.toNat < Config.rxCap) :
      Effect carry r b (.rxData b) (r.data carry b (r.buf.write r.cursor.toNat b)) .quiet
  | csumOk {d : Payload} (hst : r.state = .accumulating) (hc : r.cursor = r.len)
      (hd : memRange r.buf 0 r.len.toNat = .ok d) (hok : Sys2Proof.csumOk r.len d b = true) :
      Effect carry r b (.rxCsumOk b) (r.csumOk carry b) (.payload d)
  | csumFail {d : Payload} (hst : r.state = .accumulating) (hc : r.cursor = r.len)
      (hd : memRange r.buf 0 r.len.toNat = .ok d) (hfail : Sys2Proof.csumOk r.len d b = false) :
      Effect carry r b (.rxCsumFail b) (r.csumFail carry b) (.event (.checksumMismatch b))

/-- The operations of TX on the encoder's registers and the waiting requests (R91 to R97): `i` leaves `x'` and `rs'`
and puts `o` on the trace. -/
inductive Tx.Effect (x : Tx) : List Payload → Instr → Tx → List Payload → Obs → Prop where
  | req {p : Payload} {rs : List Payload} {buf : Memory} (hst : x.state = .idle)
      (hp : p.length ≤ Config.maxLen) (hfill : memFill x.buf 0 p = .ok buf) :
      Effect x (p :: rs) (.txReq p)
        { state := .sync0, len := BitVec.ofNat 8 p.length, cursor := 0#8, buf := buf } rs (.accepted p)
  | reqOversize {p : Payload} {rs : List Payload} {n : Byte} (hst : x.state = .idle)
      (hn : p.length = n.toNat) (hgt : Config.maxLen < n.toNat) :
      Effect x (p :: rs) (.txReqOversize n) x rs (.raised (.txOversize n))
  | sync0 {rs : List Payload} (hst : x.state = .sync0) :
      Effect x rs .txSync0 { x with state := .sync1 } rs (.pushed Config.sync0)
  | sync1 {rs : List Payload} (hst : x.state = .sync1) :
      Effect x rs .txSync1 { x with state := .len } rs (.pushed Config.sync1)
  | len {rs : List Payload} (hst : x.state = .len) :
      Effect x rs .txLen { x with cursor := 0#8, state := if x.len.toNat = 0 then .csum else .data } rs
        (.pushed x.len)
  | data {rs : List Payload} {v : Byte} (hst : x.state = .data) (hlt : x.cursor.toNat < x.len.toNat)
      (hv : memRead x.buf x.cursor.toNat = .ok v) :
      Effect x rs .txData
        { x with cursor := x.cursor + 1#8,
                 state := if x.cursor.toNat + 1 = x.len.toNat then .csum else .data } rs (.pushed v)
  | csum {rs : List Payload} {d : Payload} (hst : x.state = .csum)
      (hd : memRange x.buf 0 x.len.toNat = .ok d) :
      Effect x rs .txCsum { x with state := .idle } rs (.pushed (csumFor x.len.toNat d))

/-- The machine once the byte `b` has been consumed, with the deframer's new registers and output. -/
def State.afterByte (b : Byte) (rest : List Byte) (r : Rx) (o : RxOut) (s : State) : State :=
  { s with rx := r, env := { s.env with rxIn := rest }, trace := s.trace ++ [.consumed b] ++ o.obs }

/-- The machine after an operation of TX. -/
def State.afterTx (x : Tx) (rs : List Payload) (o : Obs) (s : State) : State :=
  { s with tx := x, env := { s.env with requests := rs }, trace := s.trace ++ [o] }

/-- The machine after `RESET` (R150). -/
def State.afterReset (s : State) : State :=
  { s.observe .wasReset with
    rx := Rx.afterReset s.freeNext, tx := Tx.afterReset s.freeNext, freeNext := s.freeNext + 5 }

/-- The machine after `RX.TAKE` (R79). -/
def State.afterTake (s : State) : State := { s.observe .taken with rx := s.rx.take }

/-- All operations on the whole machine. -/
inductive State.Effect (s : State) : Instr → State → Prop where
  | byte {b : Byte} {rest : List Byte} {i : Instr} {r : Rx} {o : RxOut} (hin : s.env.rxIn = b :: rest)
      (hov : s.rx.outValid = false) (h : s.rx.Effect true b i r o) : Effect s i (s.afterByte b rest r o)
  | encoder {i : Instr} {x : Tx} {rs : List Payload} {o : Obs} (h : s.tx.Effect s.env.requests i x rs o) :
      Effect s i (s.afterTx x rs o)
  | take (hov : s.rx.outValid = true) : Effect s .rxTake s.afterTake
  | reset : Effect s .reset s.afterReset
  | frame {p : Payload} (hp : p.length ≤ Config.maxLen) : Effect s (.frame p) (s.supply (frameBytes p))

/-! ### The fields of the states after an operation -/

section
variable (s : State) (b : Byte) (rest : List Byte) (r : Rx) (o : RxOut) (x : Tx) (rs : List Payload) (e : Obs)

@[simp] theorem State.afterByte_rx : (s.afterByte b rest r o).rx = r := rfl
@[simp] theorem State.afterByte_tx : (s.afterByte b rest r o).tx = s.tx := rfl
@[simp] theorem State.afterByte_env :
    (s.afterByte b rest r o).env = { s.env with rxIn := rest } := rfl
@[simp] theorem State.afterByte_freeNext : (s.afterByte b rest r o).freeNext = s.freeNext := rfl
theorem State.afterByte_trace :
    (s.afterByte b rest r o).trace = s.trace ++ ([.consumed b] ++ o.obs) := List.append_assoc ..

@[simp] theorem State.afterTx_rx : (s.afterTx x rs e).rx = s.rx := rfl
@[simp] theorem State.afterTx_tx : (s.afterTx x rs e).tx = x := rfl
@[simp] theorem State.afterTx_env : (s.afterTx x rs e).env = { s.env with requests := rs } := rfl
@[simp] theorem State.afterTx_freeNext : (s.afterTx x rs e).freeNext = s.freeNext := rfl
theorem State.afterTx_trace : (s.afterTx x rs e).trace = s.trace ++ [e] := rfl

@[simp] theorem State.afterTake_rx : s.afterTake.rx = s.rx.take := rfl
@[simp] theorem State.afterTake_tx : s.afterTake.tx = s.tx := rfl
@[simp] theorem State.afterTake_env : s.afterTake.env = s.env := rfl
theorem State.afterTake_trace : s.afterTake.trace = s.trace ++ [.taken] := rfl

@[simp] theorem State.afterReset_rx : s.afterReset.rx = Rx.afterReset s.freeNext := rfl
@[simp] theorem State.afterReset_tx : s.afterReset.tx = Tx.afterReset s.freeNext := rfl
@[simp] theorem State.afterReset_env : s.afterReset.env = s.env := rfl
theorem State.afterReset_trace : s.afterReset.trace = s.trace ++ [.wasReset] := rfl

/-! ### The observable sequences after an operation -/

@[simp] theorem State.afterByte_consumedBytes :
    (s.afterByte b rest r o).consumedBytes = s.consumedBytes ++ [b] := by
  rw [State.consumedBytes_extend (s.afterByte_trace b rest r o)]
  cases o <;> rfl
@[simp] theorem State.afterByte_deliveredPayloads :
    (s.afterByte b rest r o).deliveredPayloads = s.deliveredPayloads ++ o.payload?.toList := by
  rw [State.deliveredPayloads_extend (s.afterByte_trace b rest r o)]
  cases o <;> rfl
@[simp] theorem State.afterByte_raisedEvents :
    (s.afterByte b rest r o).raisedEvents = s.raisedEvents ++ o.event?.toList := by
  rw [State.raisedEvents_extend (s.afterByte_trace b rest r o)]
  cases o <;> rfl
@[simp] theorem State.afterByte_acceptedPayloads :
    (s.afterByte b rest r o).acceptedPayloads = s.acceptedPayloads := by
  rw [State.acceptedPayloads_extend (s.afterByte_trace b rest r o)]
  cases o <;> exact List.append_nil _
@[simp] theorem State.afterByte_pushedBytes :
    (s.afterByte b rest r o).pushedBytes = s.pushedBytes := by
  rw [State.pushedBytes_extend (s.afterByte_trace b rest r o)]
  cases o <;> exact List.append_nil _

@[simp] theorem State.afterTx_consumedBytes :
    (s.afterTx x rs e).consumedBytes = s.consumedBytes ++ e.consumed?.toList :=
  State.observe_consumedBytes e s
@[simp] theorem State.afterTx_deliveredPayloads :
    (s.afterTx x rs e).deliveredPayloads = s.deliveredPayloads ++ e.delivered?.toList :=
  State.observe_deliveredPayloads e s
@[simp] theorem State.afterTx_raisedEvents :
    (s.afterTx x rs e).raisedEvents = s.raisedEvents ++ e.raised?.toList :=
  State.observe_raisedEvents e s
@[simp] theorem State.afterTx_acceptedPayloads :
    (s.afterTx x rs e).acceptedPayloads = s.acceptedPayloads ++ e.accepted?.toList :=
  State.observe_acceptedPayloads e s
@[simp] theorem State.afterTx_pushedBytes :
    (s.afterTx x rs e).pushedBytes = s.pushedBytes ++ e.pushed?.toList :=
  State.observe_pushedBytes e s

end

section
variable (s : State)

@[simp] theorem State.afterTake_consumedBytes : s.afterTake.consumedBytes = s.consumedBytes := by
  simp [State.consumedBytes, State.afterTake_trace, Obs.consumed?]
@[simp] theorem State.afterTake_deliveredPayloads : s.afterTake.deliveredPayloads = s.deliveredPayloads := by
  simp [State.deliveredPayloads, State.afterTake_trace, Obs.delivered?]
@[simp] theorem State.afterTake_raisedEvents : s.afterTake.raisedEvents = s.raisedEvents := by
  simp [State.raisedEvents, State.afterTake_trace, Obs.raised?]
@[simp] theorem State.afterTake_acceptedPayloads : s.afterTake.acceptedPayloads = s.acceptedPayloads := by
  simp [State.acceptedPayloads, State.afterTake_trace, Obs.accepted?]
@[simp] theorem State.afterTake_pushedBytes : s.afterTake.pushedBytes = s.pushedBytes := by
  simp [State.pushedBytes, State.afterTake_trace, Obs.pushed?]

@[simp] theorem State.afterReset_consumedBytes : s.afterReset.consumedBytes = s.consumedBytes := by
  simp [State.consumedBytes, State.afterReset_trace, Obs.consumed?]
@[simp] theorem State.afterReset_deliveredPayloads : s.afterReset.deliveredPayloads = s.deliveredPayloads := by
  simp [State.deliveredPayloads, State.afterReset_trace, Obs.delivered?]
@[simp] theorem State.afterReset_raisedEvents : s.afterReset.raisedEvents = s.raisedEvents := by
  simp [State.raisedEvents, State.afterReset_trace, Obs.raised?]
@[simp] theorem State.afterReset_acceptedPayloads : s.afterReset.acceptedPayloads = s.acceptedPayloads := by
  simp [State.acceptedPayloads, State.afterReset_trace, Obs.accepted?]
@[simp] theorem State.afterReset_pushedBytes : s.afterReset.pushedBytes = s.pushedBytes := by
  simp [State.pushedBytes, State.afterReset_trace, Obs.pushed?]

@[simp] theorem State.supply_consumedBytes (bs : List Byte) :
    (s.supply bs).consumedBytes = s.consumedBytes := rfl
@[simp] theorem State.supply_deliveredPayloads (bs : List Byte) :
    (s.supply bs).deliveredPayloads = s.deliveredPayloads := rfl
@[simp] theorem State.supply_raisedEvents (bs : List Byte) :
    (s.supply bs).raisedEvents = s.raisedEvents := rfl
@[simp] theorem State.supply_acceptedPayloads (bs : List Byte) :
    (s.supply bs).acceptedPayloads = s.acceptedPayloads := rfl
@[simp] theorem State.supply_pushedBytes (bs : List Byte) :
    (s.supply bs).pushedBytes = s.pushedBytes := rfl

end

/-! ### The meanings of the deframer are its effects -/

theorem execRxSeekHit_eq {s : State} {b : Byte} {rest : List Byte} (hin : s.env.rxIn = b :: rest)
    (hov : s.rx.outValid = false) (hst : s.rx.state = .seekingSync)
    (hhit : syncHit s.rx.prevValid s.rx.prev b = true) :
    execRxSeekHit b s = .next (s.afterByte b rest (s.rx.seekHit true b) .quiet) := by
  simp [execRxSeekHit, consuming_eq _ hin hov, hst, hhit, State.afterByte, Config.rxPrevCarry, RxOut.obs]

theorem execRxLenOk_eq {s : State} {b : Byte} {rest : List Byte} (hin : s.env.rxIn = b :: rest)
    (hov : s.rx.outValid = false) (hst : s.rx.state = .awaitingLength) (hb : b.toNat ≤ Config.rxCap) :
    execRxLenOk b s = .next (s.afterByte b rest (s.rx.lenOk true b) .quiet) := by
  simp [execRxLenOk, consuming_eq _ hin hov, hst, hb, State.afterByte, Config.rxPrevCarry, RxOut.obs]

theorem execRxLenOversize_eq {s : State} {b : Byte} {rest : List Byte} (hin : s.env.rxIn = b :: rest)
    (hov : s.rx.outValid = false) (hst : s.rx.state = .awaitingLength) (hb : Config.rxCap < b.toNat) :
    execRxLenOversize b s =
      .next (s.afterByte b rest (s.rx.lenOversize true b) (.event (.oversizeLength b))) := by
  simp [execRxLenOversize, consuming_eq _ hin hov, hst, hb, State.afterByte, Config.rxPrevCarry, RxOut.obs]

theorem execRxData_eq {s : State} {b : Byte} {rest : List Byte} (hin : s.env.rxIn = b :: rest)
    (hov : s.rx.outValid = false) (hst : s.rx.state = .accumulating)
    (hlt : s.rx.cursor.toNat < s.rx.len.toNat) (hcap : s.rx.cursor.toNat < Config.rxCap) :
    execRxData b s =
      .next (s.afterByte b rest (s.rx.data true b (s.rx.buf.write s.rx.cursor.toNat b)) .quiet) := by
  rw [execRxData, consuming_eq _ hin hov,
    accumulating_eq (s := s.popped b rest) _ hst hlt.le]
  simp [hlt, memWrite_of_lt b hcap, State.afterByte, Config.rxPrevCarry, RxOut.obs]

theorem execRxCsumOk_eq {s : State} {b : Byte} {rest : List Byte} {d : Payload}
    (hin : s.env.rxIn = b :: rest) (hov : s.rx.outValid = false) (hst : s.rx.state = .accumulating)
    (hc : s.rx.cursor = s.rx.len) (hd : memRange s.rx.buf 0 s.rx.len.toNat = .ok d)
    (hok : csumOk s.rx.len d b = true) :
    execRxCsumOk b s = .next (s.afterByte b rest (s.rx.csumOk true b) (.payload d)) := by
  rw [execRxCsumOk, consuming_eq _ hin hov, atChecksum_eq (s := s.popped b rest) _ hst hc hd]
  simp [hok, State.afterByte, Config.rxPrevCarry, RxOut.obs]

theorem execRxCsumFail_eq {s : State} {b : Byte} {rest : List Byte} {d : Payload}
    (hin : s.env.rxIn = b :: rest) (hov : s.rx.outValid = false) (hst : s.rx.state = .accumulating)
    (hc : s.rx.cursor = s.rx.len) (hd : memRange s.rx.buf 0 s.rx.len.toNat = .ok d)
    (hfail : csumOk s.rx.len d b = false) :
    execRxCsumFail b s =
      .next (s.afterByte b rest (s.rx.csumFail true b) (.event (.checksumMismatch b))) := by
  rw [execRxCsumFail, consuming_eq _ hin hov, atChecksum_eq (s := s.popped b rest) _ hst hc hd]
  simp [hfail, State.afterByte, Config.rxPrevCarry, RxOut.obs]

theorem Rx.Effect.exec_eq {s : State} {b : Byte} {rest : List Byte} {i : Instr} {r : Rx} {o : RxOut}
    (h : s.rx.Effect true b i r o) (hin : s.env.rxIn = b :: rest) (hov : s.rx.outValid = false) :
    exec i s = .next (s.afterByte b rest r o) := by
  cases h with
  | seekHit hst hhit => exact execRxSeekHit_eq hin hov hst hhit
  | seekMiss hst hmiss =>
    exact (execRxSeekMiss_eq hin hov hst hmiss).trans (by simp [State.afterByte, Rx.seekMiss_eq, RxOut.obs])
  | lenOk hst hb => exact execRxLenOk_eq hin hov hst hb
  | lenOversize hst hb => exact execRxLenOversize_eq hin hov hst hb
  | data hst hlt hcap => exact execRxData_eq hin hov hst hlt hcap
  | csumOk hst hc hd hok => exact execRxCsumOk_eq hin hov hst hc hd hok
  | csumFail hst hc hd hfail => exact execRxCsumFail_eq hin hov hst hc hd hfail

theorem Rx.Effect.of_exec {s t : State} {b : Byte} {i : Instr} (hi : rxOperand i = some b)
    (h : exec i s = .next t) : ∃ rest r o, s.env.rxIn = b :: rest ∧ s.rx.outValid = false ∧
      s.rx.Effect true b i r o := by
  cases i with
  | rxSeekHit b' =>
    cases hi
    obtain ⟨rest, hin, hov, hst, hhit, -⟩ := execRxSeekHit_next h
    exact ⟨rest, _, _, hin, hov, .seekHit hst hhit⟩
  | rxSeekMiss b' =>
    cases hi
    obtain ⟨rest, hin, hov, hst, hmiss, -⟩ := execRxSeekMiss_next h
    exact ⟨rest, _, _, hin, hov, .seekMiss hst hmiss⟩
  | rxLenOk b' =>
    cases hi
    obtain ⟨rest, hin, hov, hst, hb, -⟩ := execRxLenOk_next h
    exact ⟨rest, _, _, hin, hov, .lenOk hst hb⟩
  | rxLenOversize b' =>
    cases hi
    obtain ⟨rest, hin, hov, hst, hb, -⟩ := execRxLenOversize_next h
    exact ⟨rest, _, _, hin, hov, .lenOversize hst hb⟩
  | rxData b' =>
    cases hi
    obtain ⟨rest, hin, hov, hst, hlt, hcap, -⟩ := execRxData_next h
    exact ⟨rest, _, _, hin, hov, .data hst hlt hcap⟩
  | rxCsumOk b' =>
    cases hi
    obtain ⟨rest, d, hin, hov, hst, hc, hd, hok, -⟩ := execRxCsumOk_next h
    exact ⟨rest, _, _, hin, hov, .csumOk hst hc hd hok⟩
  | rxCsumFail b' =>
    cases hi
    obtain ⟨rest, d, hin, hov, hst, hc, hd, hfail, -⟩ := execRxCsumFail_next h
    exact ⟨rest, _, _, hin, hov, .csumFail hst hc hd hfail⟩
  | _ => cases hi

/-! ### The meanings of the encoder are its effects -/

theorem execTxReq_eq {s : State} {p : Payload} {rest : List Payload} {buf : Memory}
    (hr : s.env.requests = p :: rest) (hst : s.tx.state = .idle) (hp : p.length ≤ Config.maxLen)
    (hfill : memFill s.tx.buf 0 p = .ok buf) :
    execTxReq p s = .next (s.afterTx
      { state := .sync0, len := BitVec.ofNat 8 p.length, cursor := 0#8, buf := buf } rest (.accepted p)) := by
  rw [execTxReq, requested_eq _ hr hst, if_pos ⟨rfl, hp⟩]
  simp only [State.requestGone_tx, hfill]
  rfl

theorem execTxReqOversize_eq {s : State} {p : Payload} {rest : List Payload} {n : Byte}
    (hr : s.env.requests = p :: rest) (hst : s.tx.state = .idle) (hn : p.length = n.toNat)
    (hgt : Config.maxLen < n.toNat) :
    execTxReqOversize n s = .next (s.afterTx s.tx rest (.raised (.txOversize n))) := by
  rw [execTxReqOversize, requested_eq _ hr hst, if_pos ⟨hn, hgt⟩]
  rfl

theorem Tx.Effect.exec_eq {s : State} {i : Instr} {x : Tx} {rs : List Payload} {o : Obs}
    (h : s.tx.Effect s.env.requests i x rs o) : exec i s = .next (s.afterTx x rs o) := by
  generalize hr : s.env.requests = rs₀ at h
  cases h with
  | req hst hp hfill => exact execTxReq_eq hr hst hp hfill
  | reqOversize hst hn hgt => exact execTxReqOversize_eq hr hst hn hgt
  | sync0 hst => subst hr; exact execTxSync0_eq hst
  | sync1 hst => subst hr; exact execTxSync1_eq hst
  | len hst => subst hr; exact execTxLen_eq hst
  | data hst hlt hv => subst hr; exact execTxData_eq hst hlt hv
  | csum hst hd => subst hr; exact execTxCsum_eq hst hd

theorem Tx.Effect.of_exec {s t : State} {i : Instr} (hi : isTx i = true) (h : exec i s = .next t) :
    ∃ x rs o, s.tx.Effect s.env.requests i x rs o := by
  cases i with
  | txReq p =>
    obtain ⟨rest, buf, hr, hst, hp, hfill, -⟩ := execTxReq_next h
    rw [hr]
    exact ⟨_, rest, _, .req hst hp hfill⟩
  | txReqOversize n =>
    obtain ⟨p, rest, hr, hst, hn, hgt, -⟩ := execTxReqOversize_next h
    rw [hr]
    exact ⟨_, rest, _, .reqOversize hst hn hgt⟩
  | txSync0 => exact ⟨_, _, _, .sync0 (execTxSync0_next h).1⟩
  | txSync1 => exact ⟨_, _, _, .sync1 (execTxSync1_next h).1⟩
  | txLen => exact ⟨_, _, _, .len (execTxLen_next h).1⟩
  | txData =>
    obtain ⟨v, hst, hlt, hv, -⟩ := execTxData_next h
    exact ⟨_, _, _, .data hst hlt hv⟩
  | txCsum =>
    obtain ⟨d, hst, hd, -⟩ := execTxCsum_next h
    exact ⟨_, _, _, .csum hst hd⟩
  | _ => cases hi

/-! ### All operations -/

theorem Tx.Effect.isTx {x x' : Tx} {rs rs' : List Payload} {i : Instr} {o : Obs}
    (h : x.Effect rs i x' rs' o) : isTx i = true := by
  cases h <;> rfl

/-- Every operation consumes a byte, belongs to TX, or is one of the three others (R5). -/
theorem instr_cases (i : Instr) : (∃ b, rxOperand i = some b) ∨ isTx i = true ∨
    i = .rxTake ∨ i = .reset ∨ ∃ p, i = .frame p := by
  cases i <;> simp [rxOperand, Machine.isTx]

theorem execRxTake_eq {s : State} (hov : s.rx.outValid = true) : execRxTake s = .next s.afterTake :=
  if_pos hov

theorem execFrame_eq {p : Payload} (s : State) (hp : p.length ≤ Config.maxLen) :
    execFrame p s = .next (s.supply (frameBytes p)) :=
  if_pos hp

theorem State.Effect.exec_eq {s t : State} {i : Instr} (h : s.Effect i t) : exec i s = .next t := by
  cases h with
  | byte hin hov h => exact h.exec_eq hin hov
  | encoder h => exact h.exec_eq
  | take hov => exact execRxTake_eq hov
  | reset => rfl
  | frame hp => exact execFrame_eq s hp

/-- `exec` answers a next state exactly where the operation has an effect, and then that state: the guards of R7 and
the results of R72 to R79, R91 to R97, R150 and the row FRAME in one statement. -/
theorem exec_next_iff {i : Instr} {s t : State} : exec i s = .next t ↔ s.Effect i t := by
  constructor
  · intro h
    have same : ∀ {t' : State}, s.Effect i t' → s.Effect i t := by
      intro t' h'
      have heq : Host.Outcome.next t' = .next t := h'.exec_eq.symm.trans h
      cases heq
      exact h'
    rcases instr_cases i with ⟨b, hi⟩ | hi | rfl | rfl | ⟨p, rfl⟩
    · obtain ⟨rest, r, o, hin, hov, heff⟩ := Rx.Effect.of_exec hi h
      exact same (.byte hin hov heff)
    · obtain ⟨x, rs, o, heff⟩ := Tx.Effect.of_exec hi h
      exact same (.encoder heff)
    · exact same (.take (execRxTake_next h).1)
    · exact same .reset
    · exact same (.frame (execFrame_next h).1)
  · exact State.Effect.exec_eq

/-- The effect of a byte-consuming operation is one on the deframer. -/
theorem exec_byte {i : Instr} {b : Byte} {s t : State} (hi : rxOperand i = some b)
    (h : exec i s = .next t) : ∃ rest r o, s.env.rxIn = b :: rest ∧ s.rx.outValid = false ∧
      s.rx.Effect true b i r o ∧ t = s.afterByte b rest r o := by
  obtain ⟨rest, r, o, hin, hov, heff⟩ := Rx.Effect.of_exec hi h
  have heq : Host.Outcome.next t = .next _ := h.symm.trans (heff.exec_eq hin hov)
  exact ⟨rest, r, o, hin, hov, heff, by cases heq; rfl⟩

/-- The effect of an operation of TX is one on the encoder. -/
theorem exec_encoder {i : Instr} {s t : State} (hi : isTx i = true) (h : exec i s = .next t) :
    ∃ x rs o, s.tx.Effect s.env.requests i x rs o ∧ t = s.afterTx x rs o := by
  obtain ⟨x, rs, o, heff⟩ := Tx.Effect.of_exec hi h
  have heq : Host.Outcome.next t = .next _ := h.symm.trans heff.exec_eq
  exact ⟨x, rs, o, heff, by cases heq; rfl⟩

end Sys2Proof.Machine
end


section
/-! The test of R8 and R54 as a law of the checksum byte (spec/42_stream_functions.md section 2). -/
namespace Sys2Proof

/-- Settles O47: the test asks the sum to be a multiple of 256, which fixes the residue of the checksum byte, and a byte
is its residue. -/
theorem exactlyOneChecksumPasses : Obligations.ExactlyOneChecksumPasses := by
  intro len c d
  rw [csumOk_iff, ← BitVec.toNat_inj, toNat_csumFor]
  have hc : c.toNat < 256 := c.isLt
  omega

theorem byteSum_append (d e : Payload) : byteSum (d ++ e) = byteSum d + byteSum e := by
  simp only [byteSum, List.map_append, List.sum_append]

theorem byteSum_singleton (x : Byte) : byteSum [x] = x.toNat := by
  simp only [byteSum, List.map_cons, List.map_nil, List.sum_singleton]

/-- Settles O48: two bytes that differ leave sums that differ by less than 256, so not both are multiples of it. -/
theorem singleByteErrorIsDetected : Obligations.SingleByteErrorIsDetected := by
  intro len c c' d e x y hok
  rw [csumOk_iff] at hok
  simp only [← Bool.not_eq_true, csumOk_iff, byteSum_append, byteSum_singleton, ne_eq,
    ← BitVec.toNat_inj] at hok ⊢
  have hx : x.toNat < 256 := x.isLt
  have hy : y.toNat < 256 := y.isLt
  have hc : c.toNat < 256 := c.isLt
  have hc' : c'.toNat < 256 := c'.isLt
  constructor <;> intro hne <;> omega

/-- The check value of a legal payload passes the test under its length byte. -/
theorem csumOk_csum {p : Payload} (h : p.length ≤ Config.maxLen) :
    csumOk (BitVec.ofNat 8 p.length) p (csum p) = true := by
  rw [exactlyOneChecksumPasses, toNat_lengthByte h]
  rfl

/-- A byte that passes the test after as many data bytes as the length byte says makes them a frame. -/
theorem frameBytes_of_csumOk {len c : Byte} {d : Payload} (hl : d.length = len.toNat)
    (hok : csumOk len d c = true) : frameBytes d = [Config.sync0, Config.sync1, len] ++ d ++ [c] := by
  have hc : c = csum d := by rw [csum, hl]; exact (exactlyOneChecksumPasses len c d).mp hok
  rw [frameBytes, hc, hl, BitVec.ofNat_toNat, BitVec.setWidth_eq]

end Sys2Proof
end

section
/-! The frame format read back (R50 to R54) and the encoder of operands. -/
namespace Sys2Proof

/-- What `decodeFrame` has found where it answers. -/
theorem decodeFrame_ok {bs more : List Byte} {p : Payload} (h : decodeFrame bs = .ok (p, more)) :
    ∃ len c, len.toNat ≤ Config.maxLen ∧ p.length = len.toNat ∧ csumOk len p c = true ∧
      bs = [Config.sync0, Config.sync1, len] ++ p ++ [c] ++ more := by
  unfold decodeFrame at h
  split at h
  · rename_i s0 s1 len rest
    split at h
    · cases h
    rename_i hsync
    split at h
    · cases h
    rename_i hlen
    split at h
    · cases h
    rename_i c more' hdrop
    split at h
    · rename_i hok
      cases h
      obtain ⟨rfl, rfl⟩ : s0 = Config.sync0 ∧ s1 = Config.sync1 := by simpa [not_or] using hsync
      have hlt : len.toNat < rest.length := by
        have : (rest.drop len.toNat).length ≠ 0 := by simp [hdrop]
        rw [List.length_drop] at this
        omega
      refine ⟨len, c, Nat.not_lt.mp hlen, List.length_take_of_le hlt.le, hok, ?_⟩
      have hrest : rest = rest.take len.toNat ++ c :: more := by rw [← hdrop, List.take_append_drop]
      simpa using hrest
    · cases h
  · cases h

theorem decodeFrame_frameBytes_append {p : Payload} (more : List Byte) (hp : p.length ≤ Config.maxLen) :
    decodeFrame (frameBytes p ++ more) = .ok (p, more) := by
  have hlen : (BitVec.ofNat 8 p.length).toNat = p.length := toNat_lengthByte hp
  have hform : frameBytes p ++ more =
      Config.sync0 :: Config.sync1 :: BitVec.ofNat 8 p.length :: (p ++ csum p :: more) := by
    simp [frameBytes]
  rw [hform]
  simp only [decodeFrame, hlen, List.drop_left, List.take_left, csumOk_csum hp, ne_eq, not_true_eq_false,
    or_self, Nat.not_lt.mpr hp, if_false, if_true]

/-- Settles O30: reading a frame takes off exactly its bytes, and what `decodeFrame` has found is a frame, since only
the check value passes the test. -/
theorem frameFormatReadsBack : Obligations.FrameFormatReadsBack := by
  refine ⟨fun p more hp => decodeFrame_frameBytes_append more hp, fun bs more p h => ?_⟩
  obtain ⟨len, c, hlen, hl, hok, rfl⟩ := decodeFrame_ok h
  exact ⟨hl.trans_le hlen, by rw [frameBytes_of_csumOk hl hok]⟩

theorem decode_wire_frameBytes {p : Payload} (hp : p.length ≤ Config.maxLen) :
    decode (.wire (frameBytes p)) = .ok (.frame p) := by
  have h := decodeFrame_frameBytes_append [] hp
  rw [List.append_nil] at h
  simp only [decode, h]

/-- Wire bytes that select an operation are one whole good frame (log 7). -/
theorem decode_wire_ok {bs : List Byte} {i : Instr} (h : decode (.wire bs) = .ok i) :
    ∃ p, i = .frame p ∧ p.length ≤ Config.maxLen ∧ bs = frameBytes p := by
  simp only [decode] at h
  split at h
  · rename_i p hd
    cases h
    obtain ⟨hp, rfl⟩ := frameFormatReadsBack.2 _ _ _ hd
    exact ⟨p, rfl, hp, List.append_nil _⟩
  · cases h
  · cases h

/-- One data byte and its complement under length 1 sum to 256. -/
theorem csumOk_complement (b : Byte) : csumOk 1#8 [~~~b] b = true := by
  rw [csumOk_iff, byteSum_singleton]
  bv_omega

/-- One data byte and its negation under length 1 sum to 1 or 257. -/
theorem csumOk_neg (b : Byte) : csumOk 1#8 [-b] b = false := by
  rw [← Bool.not_eq_true, csumOk_iff, byteSum_singleton]
  bv_omega

theorem decodeRequest_oversize {v : TxView} {p : Payload} (hv : v.state = .idle) (hp : p.length = 255) :
    decodeRequest v p = .ok (.txReqOversize 0xFF#8) := by
  simp [decodeRequest, hv, hp, Config.maxRequest, Config.maxLen]

theorem decodeRequest_legal {v : TxView} {p : Payload} (hv : v.state = .idle)
    (hp : p.length ≤ Config.maxLen) : decodeRequest v p = .ok (.txReq p) := by
  have hport : ¬ Config.maxRequest < p.length := Nat.not_lt.mpr (hp.trans (by decide))
  simp only [decodeRequest, hport, hv, hp, if_false, if_true]

/-- `FF` is the one length above `MAX_LEN` (R53). -/
theorem maxLen_lt_toNat_iff {b : Byte} : Config.maxLen < b.toNat ↔ b = 0xFF#8 := rxCap_lt_toNat_iff

/-- Settles O28, row by row: the columns `encode` chooses meet the condition of the operand's row. -/
theorem decodeInvertsEncode : Obligations.DecodeInvertsEncode := by
  intro i hwf
  cases i with
  | rxSeekHit b =>
    obtain rfl : b = Config.sync1 := by simpa [Instr.wf] using hwf
    rfl
  | rxSeekMiss b => rfl
  | rxLenOk b =>
    have hb : b.toNat ≤ Config.rxCap := by simpa [Instr.wf] using hwf
    exact (decodeRx_awaitingLength rfl rfl).trans (by rw [if_pos hb])
  | rxLenOversize b =>
    have hb : Config.rxCap < b.toNat := by simpa [Instr.wf] using hwf
    exact (decodeRx_awaitingLength rfl rfl).trans (by rw [if_neg (Nat.not_le.mpr hb)])
  | rxData b => rfl
  | rxCsumOk b =>
    exact (decodeRx_checksum rfl rfl rfl rfl).trans (congrArg _ (if_pos (csumOk_complement b)))
  | rxCsumFail b =>
    exact (decodeRx_checksum rfl rfl rfl rfl).trans
      (congrArg _ (if_neg (Bool.eq_false_iff.mp (csumOk_neg b))))
  | txReq p =>
    have hp : p.length ≤ Config.maxLen := by simpa [Instr.wf] using hwf
    exact decodeRequest_legal (v := txView .idle 0#8) rfl hp
  | txReqOversize n =>
    obtain rfl : n = 0xFF#8 := maxLen_lt_toNat_iff.mp (by simpa [Instr.wf] using hwf)
    exact decodeRequest_oversize (v := txView .idle 0#8) rfl List.length_replicate
  | frame p =>
    have hp : p.length ≤ Config.maxLen := by simpa [Instr.wf] using hwf
    exact decode_wire_frameBytes hp
  | rxTake => rfl
  | txSync0 => rfl
  | txSync1 => rfl
  | txLen => rfl
  | txData => rfl
  | txCsum => rfl
  | reset => rfl

end Sys2Proof
end

section
/-! The deframer as a pure function (R110): `rx_step` answers exactly the effects of the byte-consuming operations. -/
namespace Sys2Proof.Machine

/-- An effect is the row the selection table R55 selects. -/
theorem Rx.Effect.decode_eq {carry : Bool} {r r' : Rx} {b : Byte} {i : Instr} {o : RxOut}
    (h : r.Effect carry b i r' o) (hov : r.outValid = false) : decode (.rxByte r.view b) = .ok i := by
  refine (decodeRx_ok_iff (v := r.view) hov).mpr ?_
  cases h with
  | seekHit hst hhit => exact .inl ⟨hst, .inl ⟨hhit, rfl⟩⟩
  | seekMiss hst hmiss => exact .inl ⟨hst, .inr ⟨Bool.not_eq_true _ ▸ hmiss, rfl⟩⟩
  | lenOk hst hb => exact .inr (.inl ⟨hst, .inl ⟨hb, rfl⟩⟩)
  | lenOversize hst hb => exact .inr (.inl ⟨hst, .inr ⟨Nat.not_le.mpr hb, rfl⟩⟩)
  | data hst hlt hcap => exact .inr (.inr ⟨hst, .inl ⟨hlt, rfl⟩⟩)
  | csumOk hst hc hd hok => exact .inr (.inr ⟨hst, .inr ⟨hc, _, hd, .inl ⟨hok, rfl⟩⟩⟩)
  | csumFail hst hc hd hfail =>
    exact .inr (.inr ⟨hst, .inr ⟨hc, _, hd, .inr ⟨Bool.not_eq_true _ ▸ hfail, rfl⟩⟩⟩)

theorem outValid_of_decode {r : Rx} {b : Byte} {i : Instr} (h : decode (.rxByte r.view b) = .ok i) :
    r.outValid = false := by
  by_contra hov
  have hpend : decode (.rxByte r.view b) = .error .payloadPending :=
    decodeRx_pending (Bool.not_eq_false _ ▸ hov)
  rw [hpend] at h
  cases h

/-- A selected operation has an effect, if what RX.DATA stores has a place in the buffer. -/
theorem Rx.Effect.of_decode (carry : Bool) {r : Rx} {b : Byte} {i : Instr}
    (h : decode (.rxByte r.view b) = .ok i) (hcap : i = .rxData b → r.cursor.toNat < Config.rxCap) :
    ∃ r' o, r.Effect carry b i r' o := by
  rcases (decodeRx_ok_iff (v := r.view) (outValid_of_decode h)).mp h with
    ⟨hst, ⟨hhit, rfl⟩ | ⟨hmiss, rfl⟩⟩ | ⟨hst, ⟨hb, rfl⟩ | ⟨hb, rfl⟩⟩ |
    ⟨hst, ⟨hlt, rfl⟩ | ⟨hc, d, hd, ⟨hok, rfl⟩ | ⟨hfail, rfl⟩⟩⟩
  · exact ⟨_, _, .seekHit hst hhit⟩
  · exact ⟨_, _, .seekMiss hst (Bool.not_eq_true _ ▸ hmiss)⟩
  · exact ⟨_, _, .lenOk hst hb⟩
  · exact ⟨_, _, .lenOversize hst (Nat.not_le.mp hb)⟩
  · exact ⟨_, _, .data hst hlt (hcap rfl)⟩
  · exact ⟨_, _, .csumOk hst hc hd hok⟩
  · exact ⟨_, _, .csumFail hst hc hd (Bool.not_eq_true _ ▸ hfail)⟩

theorem Rx.Effect.stepWith_eq {carry : Bool} {r r' : Rx} {b : Byte} {i : Instr} {o : RxOut}
    (h : r.Effect carry b i r' o) (hov : r.outValid = false) : r.stepWith carry b = some (r', o) := by
  rw [Rx.stepWith, h.decode_eq hov]
  cases h with
  | data hst hlt hcap => simp only [memWrite_of_lt b hcap]
  | csumOk hst hc hd hok => simp only [hd]
  | _ => rfl

theorem Rx.Effect.of_stepWith {carry : Bool} {r r' : Rx} {b : Byte} {o : RxOut}
    (h : r.stepWith carry b = some (r', o)) : r.outValid = false ∧ ∃ i, r.Effect carry b i r' o := by
  cases hdec : decode (.rxByte r.view b) with
  | error e => simp [Rx.stepWith, hdec] at h
  | ok i =>
    have hov : r.outValid = false := outValid_of_decode hdec
    have hcap : i = .rxData b → r.cursor.toNat < Config.rxCap := by
      rintro rfl
      by_contra hge
      simp [Rx.stepWith, hdec, memWrite_of_rxCap_le _ b (Nat.not_lt.mp hge)] at h
    obtain ⟨r'', o', heff⟩ := Rx.Effect.of_decode carry hdec hcap
    have heq := (heff.stepWith_eq hov).symm.trans h
    cases heq
    exact ⟨hov, i, heff⟩

/-- Settles O49: both sides are the deframer's effects. -/
theorem machineRefinesReceiveFunction : Obligations.MachineRefinesReceiveFunction := by
  intro s b rest hin
  constructor
  · intro r o h
    obtain ⟨hov, i, heff⟩ := Rx.Effect.of_stepWith h
    exact ⟨i, heff.decode_eq hov, heff.exec_eq hin hov⟩
  · intro i t hi h
    obtain ⟨rest', r, o, hin', hov, heff, rfl⟩ := exec_byte hi h
    exact ⟨o, heff.stepWith_eq hov, rfl⟩

end Sys2Proof.Machine
end

section
/-! Runs of the pure receive function (R113): one byte, several bytes, a gap, a frame. -/
namespace Sys2Proof.Machine

@[simp] theorem Rx.takeIfPending_state (r : Rx) : r.takeIfPending.state = r.state := by
  unfold Rx.takeIfPending; split <;> rfl
@[simp] theorem Rx.takeIfPending_prev (r : Rx) : r.takeIfPending.prev = r.prev := by
  unfold Rx.takeIfPending; split <;> rfl
@[simp] theorem Rx.takeIfPending_prevValid (r : Rx) : r.takeIfPending.prevValid = r.prevValid := by
  unfold Rx.takeIfPending; split <;> rfl
@[simp] theorem Rx.takeIfPending_outValid (r : Rx) : r.takeIfPending.outValid = false := by
  unfold Rx.takeIfPending
  split
  · rfl
  · exact Bool.not_eq_true _ ▸ ‹_›
theorem Rx.takeIfPending_of_not_pending {r : Rx} (h : r.outValid = false) : r.takeIfPending = r := by
  simp [Rx.takeIfPending, h]

/-- The tail of R71 with `RX_PREV_CARRY`: the byte consumed is the previous byte, whatever the operation. -/
theorem Rx.Effect.prev_eq {r r' : Rx} {b : Byte} {i : Instr} {o : RxOut} (h : r.Effect true b i r' o) :
    r'.prev = b ∧ r'.prevValid = true := by
  cases h <;> exact ⟨rfl, rfl⟩

variable {carry : Bool} {r r' r'' : Rx} {b : Byte} {bs cs : List Byte} {i : Instr} {o : RxOut}
  {os os' : List RxOut}

theorem Rx.Effect.outValid_of_quiet (h : r.Effect carry b i r' .quiet) : r'.outValid = r.outValid := by
  cases h <;> simp

/-- A byte without output leaves the rest of the run to the new registers. -/
theorem Rx.Effect.runWith_quiet (h : r.Effect carry b i r' .quiet) (hov : r.outValid = false) :
    Rx.runWith carry r (b :: bs) = Rx.runWith carry r' bs := by
  have hov' : r'.outValid = false := h.outValid_of_quiet.trans hov
  simp only [Rx.runWith, h.stepWith_eq hov, Rx.takeIfPending_of_not_pending hov', if_true]
  cases Rx.runWith carry r' bs <;> rfl

/-- The last byte of a frame gives its output, and a payload is taken at once. -/
theorem Rx.Effect.runWith_output (h : r.Effect carry b i r' o) (ho : o ≠ .quiet) (hov : r.outValid = false) :
    Rx.runWith carry r [b] = some (r'.takeIfPending, [o]) := by
  simp only [Rx.runWith, h.stepWith_eq hov, ho, if_false]

theorem runWith_append (hb : Rx.runWith carry r bs = some (r', os))
    (hc : Rx.runWith carry r' cs = some (r'', os')) :
    Rx.runWith carry r (bs ++ cs) = some (r'', os ++ os') := by
  induction bs generalizing r os with
  | nil =>
    cases hb
    exact hc
  | cons b bs ih =>
    simp only [Rx.runWith, List.cons_append] at hb ⊢
    cases hs : r.stepWith carry b with
    | none => simp [hs] at hb
    | some p =>
      obtain ⟨r₁, o⟩ := p
      cases hrun : Rx.runWith carry r₁.takeIfPending bs with
      | none => simp [hs, hrun] at hb
      | some q =>
        obtain ⟨r₂, os₂⟩ := q
        simp only [hs, hrun, Option.some.injEq, Prod.mk.injEq] at hb
        obtain ⟨rfl, rfl⟩ := hb
        simp only [ih hrun]
        split <;> rfl

/-- With `RX_PREV_CARRY` the last byte of a run is the previous byte after it. -/
theorem runWith_snoc_prev (h : Rx.runWith true r (bs ++ [b]) = some (r', os)) :
    r'.prevValid = true ∧ r'.prev = b := by
  induction bs generalizing r os with
  | nil =>
    simp only [List.nil_append, Rx.runWith] at h
    cases hs : r.stepWith true b with
    | none => simp [hs] at h
    | some p =>
      obtain ⟨r₁, o⟩ := p
      obtain ⟨-, i, heff⟩ := Rx.Effect.of_stepWith hs
      obtain ⟨hprev, hvalid⟩ := heff.prev_eq
      simp only [hs, Option.some.injEq, Prod.mk.injEq] at h
      obtain ⟨rfl, -⟩ := h
      simp [hprev, hvalid]
  | cons c bs ih =>
    simp only [List.cons_append, Rx.runWith] at h
    cases hs : r.stepWith true c with
    | none => simp [hs] at h
    | some p =>
      cases hrun : Rx.runWith true p.1.takeIfPending (bs ++ [b]) with
      | none => simp [hs, hrun] at h
      | some q =>
        simp only [hs, hrun, Option.some.injEq, Prod.mk.injEq] at h
        obtain ⟨rfl, -⟩ := h
        exact ih hrun

/-- The checksum byte ends the frame: its test decides the output. -/
theorem runWith_checksum {d : Payload} (c : Byte) (hst : r.state = .accumulating)
    (hov : r.outValid = false) (hc : r.cursor = r.len) (hd : memRange r.buf 0 r.len.toNat = .ok d) :
    ∃ r', Rx.runWith carry r [c] =
        some (r', [if csumOk r.len d c then .payload d else .event (.checksumMismatch c)]) ∧
      r'.state = .seekingSync ∧ r'.outValid = false := by
  cases hok : csumOk r.len d c with
  | true =>
    have heff : r.Effect carry c (.rxCsumOk c) (r.csumOk carry c) (.payload d) := .csumOk hst hc hd hok
    exact ⟨_, heff.runWith_output (by simp) hov, by simp, by simp⟩
  | false =>
    have heff : r.Effect carry c (.rxCsumFail c) (r.csumFail carry c) (.event (.checksumMismatch c)) :=
      .csumFail hst hc hd hok
    exact ⟨_, heff.runWith_output (by simp) hov, by simp [Rx.csumFail], by simp⟩

/-- Settles O53, by induction on the bytes outstanding: each but the last is stored at the cursor, and the last is the
checksum byte. -/
theorem outstandingBytesAreSwallowed : Obligations.OutstandingBytesAreSwallowed := by
  intro carry r d bs c hst hov hlen hcount hd
  induction bs generalizing r d with
  | nil =>
    have hc : r.cursor = r.len := BitVec.eq_of_toNat_eq hcount
    rw [hc] at hd
    simpa using runWith_checksum c hst hov hc hd
  | cons b bs ih =>
    rw [List.length_cons] at hcount
    have hlt : r.cursor.toNat < r.len.toNat := by omega
    have hcap : r.cursor.toNat < Config.rxCap := hlt.trans_le hlen
    have hnext : (r.cursor + 1#8).toNat = r.cursor.toNat + 1 := toNat_add_one_of_lt hlt
    have heff : r.Effect carry b (.rxData b) (r.data carry b (r.buf.write r.cursor.toNat b)) .quiet :=
      .data hst hlt hcap
    rw [List.cons_append, heff.runWith_quiet hov]
    have hrec := ih (r.data carry b (r.buf.write r.cursor.toNat b)) (d ++ [b]) (by simpa using hst)
      (by simpa using hov) (by simpa using hlen) (by simp only [Rx.data_cursor, Rx.data_len, hnext]; omega)
      (by simpa only [Rx.data_buf, Rx.data_cursor, hnext] using memRange_write_next b hd hcap)
    simpa using hrec

/-- `SYNC0` never completes a sync pair. -/
theorem syncHit_sync0 (prevValid : Bool) (prev : Byte) : syncHit prevValid prev Config.sync0 = false :=
  syncHit_eq_false_iff.mpr (.inr (.inr (by decide)))

/-- Sync pair and length byte of a frame, from every deframer that seeks sync, lead to its accumulation. -/
theorem runWith_header (carry : Bool) {n : Byte} (hst : r.state = .seekingSync)
    (hov : r.outValid = false) (hn : n.toNat ≤ Config.maxLen) :
    ∃ r', (∀ bs, Rx.runWith carry r ([Config.sync0, Config.sync1, n] ++ bs) = Rx.runWith carry r' bs) ∧
      r'.state = .accumulating ∧ r'.outValid = false ∧ r'.len = n ∧ r'.cursor = 0#8 := by
  have hmiss : r.Effect carry Config.sync0 (.rxSeekMiss Config.sync0) (r.seekMiss carry Config.sync0) .quiet :=
    .seekMiss hst (syncHit_sync0 _ _)
  let r₁ := r.seekMiss carry Config.sync0
  have hhit : r₁.Effect carry Config.sync1 (.rxSeekHit Config.sync1) (r₁.seekHit carry Config.sync1) .quiet :=
    .seekHit (by simpa [r₁] using hst) (by simp [r₁, syncHit])
  let r₂ := r₁.seekHit carry Config.sync1
  have hlen : r₂.Effect carry n (.rxLenOk n) (r₂.lenOk carry n) .quiet := .lenOk (by simp [r₂]) hn
  refine ⟨r₂.lenOk carry n, fun bs => ?_, by simp, by simpa [r₂, r₁] using hov, by simp, by simp⟩
  calc Rx.runWith carry r ([Config.sync0, Config.sync1, n] ++ bs)
      = Rx.runWith carry r₁ (Config.sync1 :: n :: bs) := hmiss.runWith_quiet hov
    _ = Rx.runWith carry r₂ (n :: bs) := hhit.runWith_quiet (by simpa [r₁] using hov)
    _ = Rx.runWith carry (r₂.lenOk carry n) bs := hlen.runWith_quiet (by simpa [r₂, r₁] using hov)

/-- Any bytes in the form of a frame, from every deframer that seeks sync: one output, by the test, and the deframer
seeks sync again. -/
theorem runWith_frame (carry : Bool) {d : Payload} (c : Byte) (hst : r.state = .seekingSync)
    (hov : r.outValid = false) (hd : d.length ≤ Config.maxLen) :
    ∃ r', Rx.runWith carry r ([Config.sync0, Config.sync1, BitVec.ofNat 8 d.length] ++ d ++ [c]) =
        some (r', [if csumOk (BitVec.ofNat 8 d.length) d c then .payload d
                   else .event (.checksumMismatch c)]) ∧
      r'.state = .seekingSync ∧ r'.outValid = false := by
  have hn : (BitVec.ofNat 8 d.length).toNat = d.length := toNat_lengthByte hd
  obtain ⟨r₁, hrun, hst₁, hov₁, hlen₁, hcur₁⟩ := runWith_header carry hst hov (hn.trans_le hd)
  have hrest := outstandingBytesAreSwallowed carry r₁ [] d c hst₁ hov₁ (by rw [hlen₁, hn]; exact hd)
    (by rw [hcur₁, hlen₁, hn]; exact Nat.zero_add _) (by rw [hcur₁]; rfl)
  rw [List.append_assoc, hrun, ← hlen₁]
  exact hrest

/-- Settles O50: a frame is such bytes, and its check value passes the test. -/
theorem streamRoundTrip : Obligations.StreamRoundTrip := by
  intro carry r p hst hov hp
  obtain ⟨r', hrun, hst', hov'⟩ := runWith_frame carry (csum p) hst hov hp
  rw [csumOk_csum hp] at hrun
  refine ⟨r', hrun, hst', hov', ?_⟩
  rintro rfl
  exact runWith_snoc_prev hrun

/-- Settles O52: the bad frame gives its mismatch and leaves a deframer that seeks sync, for which the good one is a
round trip. -/
theorem resynchronisesAfterBadFrame : Obligations.ResynchronisesAfterBadFrame := by
  intro carry r d q c hst hov hd hq hbad
  obtain ⟨r₁, hrun₁, hst₁, hov₁⟩ := runWith_frame carry c hst hov hd
  obtain ⟨r₂, hrun₂, -, -, -⟩ := streamRoundTrip carry r₁ q hst₁ hov₁ hq
  rw [hbad] at hrun₁
  exact ⟨r₂, runWith_append hrun₁ hrun₂⟩

/-- The previous byte of the stream, if the deframer has one (R11). -/
def Rx.prev? (r : Rx) : Option Byte := if r.prevValid then some r.prev else none

theorem syncHit_eq_prev? (r : Rx) (b : Byte) :
    syncHit r.prevValid r.prev b = (r.prev? == some Config.sync0 && b == Config.sync1) := by
  cases h : r.prevValid <;> simp [syncHit, Rx.prev?, h]

theorem Rx.seekMiss_prev? (carry : Bool) (b : Byte) (r : Rx) : (r.seekMiss carry b).prev? = some b := by
  simp [Rx.prev?]

/-- A quiet gap is skipped byte by byte (R116). -/
theorem runWith_gap {g : List Byte} (hst : r.state = .seekingSync) (hov : r.outValid = false)
    (hg : gapQuiet r.prev? g = true) :
    ∃ r', Rx.runWith true r g = some (r', []) ∧ r'.state = .seekingSync ∧ r'.outValid = false := by
  induction g generalizing r with
  | nil => exact ⟨r, rfl, hst, hov⟩
  | cons b g ih =>
    simp only [gapQuiet, Bool.and_eq_true, Bool.not_eq_true', ← syncHit_eq_prev?] at hg
    obtain ⟨hmiss, hg⟩ := hg
    have heff : r.Effect true b (.rxSeekMiss b) (r.seekMiss true b) .quiet := .seekMiss hst hmiss
    rw [heff.runWith_quiet hov]
    exact ih (by simpa using hst) (by simpa using hov) (by rwa [Rx.seekMiss_prev?])

/-- The frames of a stream and the gaps behind them, from every deframer that seeks sync. -/
theorem runWith_frames (fs : List (Payload × List Byte)) (hst : r.state = .seekingSync)
    (hov : r.outValid = false)
    (hfs : ∀ f ∈ fs, f.1.length ≤ 254 ∧ gapQuiet (some (csum f.1)) f.2 = true) :
    ∃ r', Rx.runWith true r (fs.flatMap fun f => frameBytes f.1 ++ f.2) =
      some (r', fs.map fun f => .payload f.1) := by
  induction fs generalizing r with
  | nil => exact ⟨r, rfl⟩
  | cons f fs ih =>
    obtain ⟨⟨hp, hg⟩, hfs⟩ := List.forall_mem_cons.mp hfs
    obtain ⟨r₁, hrun₁, hst₁, hov₁, hprev⟩ := streamRoundTrip true r f.1 hst hov hp
    obtain ⟨hvalid, hprev⟩ := hprev rfl
    obtain ⟨r₂, hrun₂, hst₂, hov₂⟩ :=
      runWith_gap hst₁ hov₁ (g := f.2) (by simpa [Rx.prev?, hvalid, hprev] using hg)
    obtain ⟨r₃, hrun₃⟩ := ih hst₂ hov₂ hfs
    exact ⟨r₃, runWith_append (runWith_append hrun₁ hrun₂) hrun₃⟩

/-- Settles O51: the first gap is skipped, and each frame and the gap behind it leave a deframer that seeks sync. -/
theorem framesWithQuietGapsDecode : Obligations.FramesWithQuietGapsDecode := by
  intro g0 fs hg hfs
  obtain ⟨r₁, hrun₁, hst₁, hov₁⟩ := runWith_gap (r := State.reset.rx) rfl rfl hg
  obtain ⟨r₂, hrun₂⟩ := runWith_frames fs hst₁ hov₁ hfs
  exact ⟨r₂, runWith_append hrun₁ hrun₂⟩

end Sys2Proof.Machine
end


section
/-! The selection table of TX, R56 (spec/30_encoding.md): its rows as equivalences, and what the other cases answer. -/
namespace Sys2Proof

section
variable {v : TxView} {p : Payload} {i : Instr}

theorem decode_request_tooLong (hp : 255 < p.length) :
    decode (.request v p) = .error .requestTooLong :=
  if_pos hp

theorem decode_request_busy (hp : p.length ≤ 255) (hv : v.state ≠ .idle) :
    decode (.request v p) = .error .encoderBusy := by
  have hport : ¬ Config.maxRequest < p.length := Nat.not_lt.mpr hp
  simp only [decode, decodeRequest, hport, if_false]

/-- The two request rows: a legal payload, or the one length that fits the port and not the latch. -/
theorem decode_request_iff : decode (.request v p) = .ok i ↔
    v.state = .idle ∧
      ((p.length ≤ 254 ∧ i = .txReq p) ∨ (p.length = 255 ∧ i = .txReqOversize 0xFF#8)) := by
  rcases (show p.length ≤ 254 ∨ p.length = 255 ∨ 255 < p.length by omega) with hp | hp | hp
  · have hne : p.length ≠ 255 := by omega
    by_cases hv : v.state = .idle
    · simp [decode, decodeRequest_legal hv hp, hv, hp, hne, eq_comm]
    · simp [decode_request_busy (p := p) (by omega) hv, hv]
  · by_cases hv : v.state = .idle
    · simp [decode, decodeRequest_oversize hv hp, hv, hp, eq_comm]
    · simp [decode_request_busy (p := p) (by omega) hv, hv]
  · have hle : ¬ p.length ≤ 254 := by omega
    have hne : p.length ≠ 255 := by omega
    simp [decode_request_tooLong hp, hle, hne]

/-- A request the port can carry selects nothing only while the encoder is busy (R99). -/
theorem decode_request_error {e : DecodeError} (hp : p.length ≤ 255)
    (he : decode (.request v p) = .error e) : e = .encoderBusy := by
  by_cases hv : v.state = .idle
  · rcases (show p.length ≤ 254 ∨ p.length = 255 by omega) with hp | hp
    · simp [decode, decodeRequest_legal hv hp] at he
    · simp [decode, decodeRequest_oversize hv hp] at he
  · rw [decode_request_busy hp hv] at he
    cases he
    rfl

theorem decode_sink_idle (hv : v.state = .idle) : decode (.sink v) = .error .nothingToEmit := by
  simp only [decode, decodeSink, hv]

theorem decode_sink_cursorPastLength (hv : v.state = .data) (hc : v.len.toNat ≤ v.cursor.toNat) :
    decode (.sink v) = .error .txCursorPastLength := by
  simp only [decode, decodeSink, hv, Nat.not_lt.mpr hc, if_false]

/-- The five emit rows, one for each busy state. -/
theorem decode_sink_iff : decode (.sink v) = .ok i ↔
    (v.state = .sync0 ∧ i = .txSync0) ∨ (v.state = .sync1 ∧ i = .txSync1) ∨
    (v.state = .len ∧ i = .txLen) ∨
    (v.state = .data ∧ v.cursor.toNat < v.len.toNat ∧ i = .txData) ∨
    (v.state = .csum ∧ i = .txCsum) := by
  cases hv : v.state with
  | data =>
    by_cases hlt : v.cursor.toNat < v.len.toNat
    · simp [decode, decodeSink, hv, hlt, eq_comm]
    · simp [decode_sink_cursorPastLength hv (Nat.not_lt.mp hlt), hlt]
  | _ => simp [decode, decodeSink, hv, eq_comm]

end

/-- Settles O21: the rows of both halves of the table, and their other cases. -/
theorem transmitSelectionTable : Obligations.TransmitSelectionTable :=
  fun _ _ _ => ⟨decode_request_iff, decode_sink_iff, decode_request_tooLong, decode_request_busy,
    decode_sink_idle, decode_sink_cursorPastLength⟩

end Sys2Proof
end

section
/-! How the deframer comes into each of its states, and what a latched request leaves in the latch. -/
namespace Sys2Proof.Machine

section
variable {carry : Bool} {r r' : Rx} {b : Byte} {i : Instr} {o : RxOut}

/-- `AwaitingLength` is entered by a sync hit only (R70). -/
theorem Rx.Effect.of_awaitingLength (h : r.Effect carry b i r' o) (hst' : r'.state = .awaitingLength) :
    r.state = .seekingSync ∧ syncHit r.prevValid r.prev b = true ∧ i = .rxSeekHit b ∧
      r' = r.seekHit carry b := by
  cases h with
  | seekHit hst hhit => exact ⟨hst, hhit, rfl, rfl⟩
  | seekMiss hst => simp [hst] at hst'
  | data hst => simp [hst] at hst'
  | _ => simp [Rx.lenOversize, Rx.csumFail] at hst'

/-- A frame is accumulated after a legal length byte or a data byte (R70). -/
theorem Rx.Effect.of_accumulating (h : r.Effect carry b i r' o) (hst' : r'.state = .accumulating) :
    (r.state = .awaitingLength ∧ b.toNat ≤ Config.rxCap ∧ r' = r.lenOk carry b) ∨
    (r.state = .accumulating ∧ r.cursor.toNat < r.len.toNat ∧ r.cursor.toNat < Config.rxCap ∧
      r' = r.data carry b (r.buf.write r.cursor.toNat b)) := by
  cases h with
  | lenOk hst hb => exact .inl ⟨hst, hb, rfl⟩
  | data hst hlt hcap => exact .inr ⟨hst, hlt, hcap, rfl⟩
  | seekMiss hst => simp [hst] at hst'
  | _ => simp [Rx.lenOversize, Rx.csumFail] at hst'

/-- Only a passing checksum byte delivers, and then exactly the stored payload (R77). -/
theorem Rx.Effect.of_payload {p : Payload} (h : r.Effect carry b i r' (.payload p)) :
    r.state = .accumulating ∧ r.cursor = r.len ∧ memRange r.buf 0 r.len.toNat = .ok p ∧
      Sys2Proof.csumOk r.len p b = true ∧ i = .rxCsumOk b ∧ r' = r.csumOk carry b := by
  cases h with
  | csumOk hst hc hd hok => exact ⟨hst, hc, hd, hok, rfl, rfl⟩

/-- A payload that becomes pending is the one delivered. -/
theorem Rx.Effect.payload_of_pending (h : r.Effect carry b i r' o) (hov : r.outValid = false)
    (hov' : r'.outValid = true) : ∃ p, o = .payload p := by
  cases h with
  | csumOk => exact ⟨_, rfl⟩
  | _ => simp [Rx.lenOversize, Rx.csumFail, hov] at hov'

/-- The canonical form of the buffer is kept. -/
theorem Rx.Effect.buf_wf (h : r.Effect carry b i r' o) (hwf : r.buf.wf = true) : r'.buf.wf = true := by
  cases h with
  | data hst hlt hcap => simpa using Memory.wf_write b hwf hcap
  | _ => simpa [Rx.lenOversize, Rx.csumFail] using hwf

end

/-- The latch after a request (R91). -/
theorem memFill_legal {m m' : Memory} {p : Payload} (hp : p.length ≤ Config.maxLen)
    (h : memFill m 0 p = .ok m') : memRange m' 0 p.length = .ok p ∧
      (∀ a, p.length ≤ a → m'.read a = m.read a) ∧ (m.wf = true → m'.wf = true) := by
  obtain ⟨m'', hfill, hrange, hother, hwf⟩ := memFill_spec (m := m) (i := 0) (p := p) (by rwa [Nat.zero_add])
  rw [h] at hfill
  cases hfill
  exact ⟨hrange, fun a ha => hother a (.inr (by rwa [Nat.zero_add])), hwf⟩

end Sys2Proof.Machine
end

section
/-! The invariants of 10_state.md R18, for each half apart: over its registers and what the trace says of it. -/
namespace Sys2Proof.Machine

/-- The invariants of the deframer, over its registers `r`, the bytes consumed `cs` and the payloads delivered `ds`. -/
structure RxInv (r : Rx) (cs : List Byte) (ds : List Payload) : Prop where
  bounds : r.state = .accumulating → r.cursor.toNat ≤ r.len.toNat ∧ r.len.toNat ≤ Config.maxLen
  seeks : r.outValid = true → r.state = .seekingSync ∧ r.len.toNat ≤ Config.maxLen
  stored : r.state = .accumulating →
    ∃ before d, cs = before ++ [Config.sync0, Config.sync1, r.len] ++ d ∧
      memRange r.buf 0 r.cursor.toNat = .ok d
  sync : r.state = .awaitingLength → ∃ before, cs = before ++ [Config.sync0, Config.sync1]
  prev : r.prevValid = true → cs.getLast? = some r.prev
  pending : r.outValid = true → ∃ d, memRange r.buf 0 r.len.toNat = .ok d ∧ ds.getLast? = some d
  valid : r.state ≠ .seekingSync → r.prevValid = true
  wf : r.buf.wf = true
  framed : ∀ p ∈ ds, ∃ before after, cs = before ++ frameBytes p ++ after

/-- The invariants of the encoder, over its registers `x` and the requests accepted `as`. -/
structure TxInv (x : Tx) (as : List Payload) : Prop where
  bounds : x.state = .data → x.cursor.toNat < x.len.toNat
  latch : x.state ≠ .idle → ∃ p, as.getLast? = some p ∧ p.length ≤ Config.maxLen ∧
    x.len.toNat = p.length ∧ memRange x.buf 0 p.length = .ok p
  wf : x.buf.wf = true

theorem inv_iff {s : State} :
    Inv s ↔ RxInv s.rx s.consumedBytes s.deliveredPayloads ∧ TxInv s.tx s.acceptedPayloads := by
  constructor
  · intro h
    obtain ⟨hrx, htx⟩ := h.memory
    exact ⟨⟨h.inv1, h.inv3, h.inv5, h.sync, h.prev, h.pending, h.inv9, hrx, h.framed⟩,
      ⟨h.inv7, h.inv8, htx⟩⟩
  · rintro ⟨hr, hx⟩
    exact ⟨hr.bounds, hr.seeks, hr.stored, hr.sync, hr.prev, hr.pending, hx.bounds, hx.latch, hr.valid,
      ⟨hr.wf, hx.wf⟩, hr.framed⟩

section
variable {r r' : Rx} {b : Byte} {i : Instr} {o : RxOut} {cs : List Byte} {ds : List Payload}

/-- The stored bytes of the frame in progress stay the bytes consumed since its length byte (INV5). -/
theorem RxInv.stored_step (hinv : RxInv r cs ds) (h : r.Effect true b i r' o)
    (hst' : r'.state = .accumulating) :
    ∃ before d, cs ++ [b] = before ++ [Config.sync0, Config.sync1, r'.len] ++ d ∧
      memRange r'.buf 0 r'.cursor.toNat = .ok d := by
  rcases h.of_accumulating hst' with ⟨hst, -, rfl⟩ | ⟨hst, hlt, hcap, rfl⟩
  · obtain ⟨before, rfl⟩ := hinv.sync hst
    exact ⟨before, [], by simp, rfl⟩
  · obtain ⟨before, d, rfl, hd⟩ := hinv.stored hst
    refine ⟨before, d ++ [b], by simp, ?_⟩
    simpa only [Rx.data_buf, Rx.data_cursor, toNat_add_one_of_lt hlt] using memRange_write_next b hd hcap

/-- The sync pair stands at the end of the consumed stream when a length byte is awaited. -/
theorem RxInv.sync_step (hinv : RxInv r cs ds) (h : r.Effect true b i r' o)
    (hst' : r'.state = .awaitingLength) :
    ∃ before, cs ++ [b] = before ++ [Config.sync0, Config.sync1] := by
  obtain ⟨-, hhit, -, -⟩ := h.of_awaitingLength hst'
  obtain ⟨hvalid, hprev, rfl⟩ := syncHit_iff.mp hhit
  have hlast : cs.getLast? = some Config.sync0 := (hinv.prev hvalid).trans (by rw [hprev]; rfl)
  obtain ⟨before, rfl⟩ := List.getLast?_eq_some_iff.mp hlast
  exact ⟨before, by simp [Config.sync1]⟩

/-- A delivered payload stands on the consumed stream as a whole good frame. -/
theorem RxInv.framed_step (hinv : RxInv r cs ds) (h : r.Effect true b i r' o) :
    ∀ p ∈ ds ++ o.payload?.toList, ∃ before after, cs ++ [b] = before ++ frameBytes p ++ after := by
  intro p hp
  rcases List.mem_append.mp hp with hp | hp
  · obtain ⟨before, after, rfl⟩ := hinv.framed p hp
    exact ⟨before, after ++ [b], by simp⟩
  · cases o with
    | payload q =>
      obtain rfl : p = q := by simpa [RxOut.payload?] using hp
      obtain ⟨hst, hc, hd, hok, -, -⟩ := h.of_payload
      obtain ⟨before, d, rfl, hd'⟩ := hinv.stored hst
      rw [hc, hd] at hd'
      cases hd'
      rw [frameBytes_of_csumOk (memRange_length hd) hok]
      exact ⟨before, [], by simp⟩
    | quiet => simp [RxOut.payload?] at hp
    | event e => simp [RxOut.payload?] at hp

/-- A byte consumed keeps the invariants of the deframer. -/
theorem RxInv.step (hinv : RxInv r cs ds) (hov : r.outValid = false) (h : r.Effect true b i r' o) :
    RxInv r' (cs ++ [b]) (ds ++ o.payload?.toList) where
  bounds := by
    intro hst'
    rcases h.of_accumulating hst' with ⟨-, hb, rfl⟩ | ⟨hst, hlt, -, rfl⟩
    · exact ⟨Nat.zero_le _, hb⟩
    · simp only [Rx.data_cursor, Rx.data_len, toNat_add_one_of_lt hlt]
      exact ⟨hlt, (hinv.bounds hst).2⟩
  seeks := by
    intro hov'
    obtain ⟨p, rfl⟩ := h.payload_of_pending hov hov'
    obtain ⟨hst, -, -, -, -, rfl⟩ := h.of_payload
    simpa using (hinv.bounds hst).2
  stored := hinv.stored_step h
  sync := hinv.sync_step h
  prev := by
    obtain ⟨hprev, -⟩ := h.prev_eq
    simp [hprev]
  pending := by
    intro hov'
    obtain ⟨p, rfl⟩ := h.payload_of_pending hov hov'
    obtain ⟨-, -, hd, -, -, rfl⟩ := h.of_payload
    exact ⟨p, by simpa using hd, by simp [RxOut.payload?]⟩
  valid := fun _ => h.prev_eq.2
  wf := h.buf_wf hinv.wf
  framed := hinv.framed_step h

/-- Taking the pending payload keeps the invariants of the deframer. -/
theorem RxInv.take (hinv : RxInv r cs ds) : RxInv r.take cs ds :=
  { hinv with
    seeks := fun h => by simp at h
    pending := fun h => by simp at h }

/-- A reset keeps the invariants of the deframer: it seeks sync with no previous byte and nothing pending. -/
theorem RxInv.afterReset (hinv : RxInv r cs ds) (n : Nat) : RxInv (Rx.afterReset n) cs ds where
  bounds := fun h => by simp [Rx.afterReset] at h
  seeks := fun h => by simp [Rx.afterReset] at h
  stored := fun h => by simp [Rx.afterReset] at h
  sync := fun h => by simp [Rx.afterReset] at h
  prev := fun h => by simp [Rx.afterReset] at h
  pending := fun h => by simp [Rx.afterReset] at h
  valid := fun h => absurd rfl h
  wf := rfl
  framed := hinv.framed

end

section
variable {x x' : Tx} {rs rs' : List Payload} {i : Instr} {o : Obs} {as : List Payload}

/-- INV7: the state after the length byte, and after each payload byte but the last, has a byte left. -/
theorem Tx.Effect.cursor_lt (h : x.Effect rs i x' rs' o) (hst' : x'.state = .data) :
    x'.cursor.toNat < x'.len.toNat := by
  cases h with
  | reqOversize hst => simp [hst] at hst'
  | len hst =>
    have hpos : x.len.toNat ≠ 0 := fun h0 => by simp [h0] at hst'
    exact Nat.pos_of_ne_zero hpos
  | data hst hlt hv =>
    have hne : x.cursor.toNat + 1 ≠ x.len.toNat := fun heq => by simp [heq] at hst'
    simp only [toNat_add_one_of_lt hlt]
    omega
  | _ => cases hst'

/-- An operation that leaves the encoder busy has latched its request or kept length and latch. -/
theorem Tx.Effect.latch_cases (h : x.Effect rs i x' rs' o) (hst' : x'.state ≠ .idle) :
    (∃ p, o = .accepted p ∧ p.length ≤ Config.maxLen ∧ x'.len.toNat = p.length ∧
      memRange x'.buf 0 p.length = .ok p) ∨
    (x.state ≠ .idle ∧ o.accepted? = none ∧ x'.len = x.len ∧ x'.buf = x.buf) := by
  cases h with
  | req hst hp hfill => exact .inl ⟨_, rfl, hp, toNat_lengthByte hp, (memFill_legal hp hfill).1⟩
  | reqOversize hst => exact absurd hst hst'
  | sync0 hst => exact .inr ⟨by simp [hst], rfl, rfl, rfl⟩
  | sync1 hst => exact .inr ⟨by simp [hst], rfl, rfl, rfl⟩
  | len hst => exact .inr ⟨by simp [hst], rfl, rfl, rfl⟩
  | data hst => exact .inr ⟨by simp [hst], rfl, rfl, rfl⟩
  | csum => exact absurd rfl hst'

theorem Tx.Effect.buf_wf (h : x.Effect rs i x' rs' o) (hwf : x.buf.wf = true) : x'.buf.wf = true := by
  cases h with
  | req hst hp hfill => exact (memFill_legal hp hfill).2.2 hwf
  | _ => exact hwf

/-- An operation of TX keeps the invariants of the encoder. -/
theorem TxInv.step (hinv : TxInv x as) (h : x.Effect rs i x' rs' o) :
    TxInv x' (as ++ o.accepted?.toList) where
  bounds := h.cursor_lt
  latch := by
    intro hst'
    rcases h.latch_cases hst' with ⟨p, rfl, hp, hlen, hrange⟩ | ⟨hst, hacc, hlen, hbuf⟩
    · exact ⟨p, by simp [Obs.accepted?], hp, hlen, hrange⟩
    · rw [hacc, hlen, hbuf, Option.toList_none, List.append_nil]
      exact hinv.latch hst
  wf := h.buf_wf hinv.wf

theorem TxInv.afterReset (n : Nat) : TxInv (Tx.afterReset n) as where
  bounds := fun h => by simp [Tx.afterReset] at h
  latch := fun h => absurd rfl h
  wf := rfl

/-- An operation of TX consumes no byte and delivers nothing. -/
theorem Tx.Effect.obs_rx (h : x.Effect rs i x' rs' o) : o.consumed? = none ∧ o.delivered? = none := by
  cases h <;> exact ⟨rfl, rfl⟩

end

/-- Every operation keeps the invariants. -/
theorem State.Effect.keeps_inv {s t : State} {i : Instr} (h : s.Effect i t) (hinv : Inv s) : Inv t := by
  obtain ⟨hrx, htx⟩ := inv_iff.mp hinv
  rw [inv_iff]
  cases h with
  | byte hin hov h => simpa using ⟨hrx.step hov h, htx⟩
  | encoder h =>
    obtain ⟨hcons, hdel⟩ := h.obs_rx
    simpa [hcons, hdel] using ⟨hrx, htx.step h⟩
  | take hov => simpa using ⟨hrx.take, htx⟩
  | reset => simpa using ⟨hrx.afterReset s.freeNext, TxInv.afterReset s.freeNext⟩
  | frame hp => exact ⟨hrx, htx⟩

/-- Settles O37: at reset the deframer seeks sync with no previous byte, the encoder is idle, and nothing has been
offered or transferred. -/
theorem invariantsHoldAtReset : Obligations.InvariantsHoldAtReset := by
  refine ⟨inv_iff.mpr ⟨⟨?_, ?_, ?_, ?_, ?_, ?_, ?_, rfl, ?_⟩, ⟨?_, ?_, rfl⟩⟩, ?_, ?_⟩ <;>
    simp [State.reset, State.deliveredPayloads]

end Sys2Proof.Machine
end

section
/-! From the schedule to the operation (00_scope.md R5 to R7): what `fetchTurn` and `step` answer, case by case. -/
namespace Sys2Proof.Machine

section
variable {s t : State} {turn : Turn} {ms : List Moment} {w : Presented} {i : Instr} {e : DecodeError}

theorem fetchTurn_selected (hw : presented turn s = some w) (hi : decode w = .ok i) :
    fetchTurn turn s = .run i s := by
  cases turn with
  | present p => cases hw
  | wire bs =>
    cases hw
    simp only [fetchTurn, hi]
  | _ => simp only [fetchTurn, hw, hi]

theorem fetchTurn_unselected (hwire : ∀ bs, turn ≠ .wire bs) (hw : presented turn s = some w)
    (he : decode w = .error e) : fetchTurn turn s = unselected e s := by
  cases turn with
  | present p => cases hw
  | wire bs => exact absurd rfl (hwire bs)
  | _ => simp only [fetchTurn, hw, he]

theorem fetchTurn_nothing (hpres : ∀ p, turn ≠ .present p) (hw : presented turn s = none) :
    fetchTurn turn s = .wait s := by
  cases turn with
  | present p => exact absurd rfl (hpres p)
  | wire bs => cases hw
  | _ => simp only [fetchTurn, hw]

theorem fetchTurn_wire {bs : List Byte} (he : decode (.wire bs) = .error e) :
    fetchTurn (.wire bs) s = .wait (s.supply bs) := by
  simp only [fetchTurn, he]

theorem fetchTurn_present {p : Payload} (hp : p.length ≤ Config.maxRequest) :
    fetchTurn (.present p) s = .wait (s.present p) :=
  if_pos hp

theorem fetch_of_turn (ha : s.env.agenda = { rst := false, turn := turn } :: ms) :
    fetch s = fetchTurn turn (s.withAgenda ms) := by
  simp only [fetch, ha, Bool.false_eq_true, if_false]

end

/-- What one turn comes to: an operation, an agent with none selected, an offer of the surroundings, or a wait. -/
theorem fetchTurn_cases (turn : Turn) (s : State) :
    (∃ w i, presented turn s = some w ∧ decode w = .ok i ∧ fetchTurn turn s = .run i s) ∨
    (∃ w e, presented turn s = some w ∧ decode w = .error e ∧ (∀ bs, turn ≠ .wire bs) ∧
      fetchTurn turn s = unselected e s) ∨
    (∃ bs, turn = .wire bs ∧ fetchTurn turn s = .wait (s.supply bs)) ∨
    (∃ p, turn = .present p ∧ fetchTurn turn s =
      if p.length ≤ Config.maxRequest then .wait (s.present p) else .refuse .requestTooLong) ∨
    fetchTurn turn s = .wait s := by
  cases hw : presented turn s with
  | none =>
    by_cases hpres : ∃ p, turn = .present p
    · obtain ⟨p, rfl⟩ := hpres
      exact .inr (.inr (.inr (.inl ⟨p, rfl, rfl⟩)))
    · exact .inr (.inr (.inr (.inr (fetchTurn_nothing (not_exists.mp hpres) hw))))
  | some w =>
    cases hd : decode w with
    | ok i => exact .inl ⟨w, i, rfl, hd, fetchTurn_selected hw hd⟩
    | error e =>
      by_cases hwire : ∃ bs, turn = .wire bs
      · obtain ⟨bs, rfl⟩ := hwire
        cases hw
        exact .inr (.inr (.inl ⟨bs, rfl, fetchTurn_wire hd⟩))
      · have hwire := not_exists.mp hwire
        exact .inr (.inl ⟨w, e, rfl, hd, hwire, fetchTurn_unselected hwire hw hd⟩)

/-- Every moment but a reset takes itself off the schedule; a reset leaves its turn there (log 6). -/
theorem fetch_cases (s : State) :
    (s.env.agenda = [] ∧ fetch s = .wait s) ∨
    ∃ m ms, s.env.agenda = m :: ms ∧
      ((m.rst = true ∧ fetch s = .run .reset (s.withAgenda ({ m with rst := false } :: ms))) ∨
        (m.rst = false ∧ fetch s = fetchTurn m.turn (s.withAgenda ms))) := by
  cases ha : s.env.agenda with
  | nil => exact .inl ⟨rfl, by simp only [fetch, ha]⟩
  | cons m ms =>
    refine .inr ⟨m, ms, rfl, ?_⟩
    cases hm : m.rst with
    | true => exact .inl ⟨rfl, by simp only [fetch, ha, hm, if_true]⟩
    | false => exact .inr ⟨rfl, by simp only [fetch, ha, hm, Bool.false_eq_true, if_false]⟩

theorem step_of_run {s s' : State} {i : Instr} (h : fetch s = .run i s') : step s = exec i s' := by
  simp only [step, h]

theorem step_of_wait {s s' : State} (h : fetch s = .wait s') : step s = .next s' := by
  simp only [step, h]

theorem step_of_fault {s : State} {f : Fault} (h : fetch s = .fault f) : step s = .fault f := by
  simp only [step, h]

theorem eq_of_unselected_wait {e : DecodeError} {s s' : State} (h : unselected e s = .wait s') : s' = s := by
  cases e <;> simp only [unselected, Fetched.wait.injEq, reduceCtorEq] at h
  all_goals exact h.symm

/-- Only the surroundings differ: registers, buffers and trace are the same. -/
def State.SameBlock (s t : State) : Prop := t.rx = s.rx ∧ t.tx = s.tx ∧ t.trace = s.trace

/-- A wait leaves the block alone, whatever the surroundings have offered meanwhile. -/
theorem sameBlock_of_wait {turn : Turn} {s t : State} (h : fetchTurn turn s = .wait t) : s.SameBlock t := by
  rcases fetchTurn_cases turn s with ⟨w, i, -, -, hf⟩ | ⟨w, e, -, -, -, hf⟩ | ⟨bs, -, hf⟩ | ⟨p, -, hf⟩ | hf <;>
    rw [hf] at h
  · cases h
  · cases eq_of_unselected_wait h
    exact ⟨rfl, rfl, rfl⟩
  · cases h
    exact ⟨rfl, rfl, rfl⟩
  · split at h <;> cases h
    exact ⟨rfl, rfl, rfl⟩
  · cases h
    exact ⟨rfl, rfl, rfl⟩

theorem eq_of_fetchTurn_run {turn : Turn} {s s' : State} {i : Instr} (h : fetchTurn turn s = .run i s') :
    s' = s := by
  rcases fetchTurn_cases turn s with ⟨w, j, -, -, hf⟩ | ⟨w, e, -, -, -, hf⟩ | ⟨bs, -, hf⟩ | ⟨p, -, hf⟩ | hf <;>
    rw [hf] at h
  · cases h
    rfl
  · cases e <;> cases h
  · cases h
  · split at h <;> cases h
  · cases h

/-- A step is an operation after a change of the schedule, or the block stays as it is. -/
theorem step_cases {s t : State} (h : step s = .next t) :
    (∃ i a, (s.withAgenda a).Effect i t) ∨ s.SameBlock t := by
  rcases fetch_cases s with ⟨-, hf⟩ | ⟨m, ms, -, ⟨-, hf⟩ | ⟨-, hf⟩⟩
  · rw [step_of_wait hf] at h
    cases h
    exact .inr ⟨rfl, rfl, rfl⟩
  · rw [step_of_run hf] at h
    exact .inl ⟨_, _, exec_next_iff.mp h⟩
  · cases hturn : fetchTurn m.turn (s.withAgenda ms) with
    | run i s' =>
      cases eq_of_fetchTurn_run hturn
      rw [step_of_run (hf.trans hturn)] at h
      exact .inl ⟨i, ms, exec_next_iff.mp h⟩
    | wait s' =>
      rw [step_of_wait (hf.trans hturn)] at h
      cases h
      exact .inr (sameBlock_of_wait (s := s.withAgenda ms) hturn)
    | fault f => simp [step, hf, hturn] at h
    | refuse r => simp [step, hf, hturn] at h

/-- The invariants speak of the block alone. -/
theorem Inv.of_sameBlock {s t : State} (hinv : Inv s) (h : s.SameBlock t) : Inv t := by
  obtain ⟨hrx, htx, htr⟩ := h
  rw [inv_iff] at hinv ⊢
  simpa only [State.consumedBytes, State.deliveredPayloads, State.acceptedPayloads, hrx, htx, htr] using hinv

/-- Settles O38: every operation keeps the invariants, and schedule and offers do not matter to them. -/
theorem stepKeepsInvariants : Obligations.StepKeepsInvariants := by
  intro s t hinv h
  rcases step_cases h with ⟨i, a, heff⟩ | hsame
  · exact heff.keeps_inv (hinv.of_sameBlock ⟨rfl, rfl, rfl⟩)
  · exact hinv.of_sameBlock hsame

end Sys2Proof.Machine
end

section
/-! In a state with the invariants nothing stops the block: every selected operation has a step, and where none is
selected the agent waits. -/
namespace Sys2Proof.Machine

section
variable {s : State} {b : Byte} {i : Instr} {e : DecodeError}

/-- A byte that selects an operation is consumed by it. -/
theorem effect_of_decode_rxByte (hinv : Inv s) (hb : s.env.rxIn.head? = some b)
    (hi : decode (.rxByte s.rx.view b) = .ok i) : ∃ t, s.Effect i t := by
  obtain ⟨rest, hin⟩ := List.head?_eq_some_iff.mp hb
  have hov : s.rx.outValid = false := outValid_of_decode hi
  have hcap : i = .rxData b → s.rx.cursor.toNat < Config.rxCap := by
    rintro rfl
    obtain ⟨hst, hlt⟩ : s.rx.state = .accumulating ∧ s.rx.cursor.toNat < s.rx.len.toNat := by
      simpa [Rx.view] using (decodeRx_ok_iff (v := s.rx.view) hov).mp hi
    exact hlt.trans_le (hinv.inv1 hst).2
  obtain ⟨r, o, heff⟩ := Rx.Effect.of_decode true hi hcap
  exact ⟨_, .byte hin hov heff⟩

/-- With the invariants a byte selects nothing only while a payload is pending. -/
theorem decode_rxByte_error (hinv : Inv s) (he : decode (.rxByte s.rx.view b) = .error e) :
    e = .payloadPending := by
  replace he : decodeRx s.rx.view b = .error e := he
  cases hov : s.rx.outValid with
  | true =>
    rw [decodeRx_pending (v := s.rx.view) hov] at he
    cases he
    rfl
  | false =>
    exfalso
    cases hst : s.rx.state with
    | seekingSync => simp [decodeRx_seekingSync (v := s.rx.view) hov hst] at he
    | awaitingLength => simp [decodeRx_awaitingLength (v := s.rx.view) hov hst] at he
    | accumulating =>
      obtain ⟨before, d, -, hd⟩ := hinv.inv5 hst
      rcases s.rx.view.cursor_cases with hc | hc | hc
      · simp [decodeRx_data (v := s.rx.view) hov hst hc] at he
      · have hlen : s.rx.cursor = s.rx.len := hc
        rw [hlen] at hd
        simp [decodeRx_checksum (v := s.rx.view) hov hst hc hd] at he
      · exact absurd (hinv.inv1 hst).1 (Nat.not_le.mpr hc)

/-- A request that selects an operation is accepted or refused by it. -/
theorem effect_of_decode_request {p : Payload} (hp : s.env.requests.head? = some p)
    (hi : decode (.request s.tx.view p) = .ok i) : ∃ t, s.Effect i t := by
  obtain ⟨rest, hr⟩ := List.head?_eq_some_iff.mp hp
  obtain ⟨hst, ⟨hlen, rfl⟩ | ⟨hlen, rfl⟩⟩ := decode_request_iff.mp hi
  · obtain ⟨buf, hfill, -⟩ := memFill_spec (m := s.tx.buf) (i := 0) (p := p) (by rwa [Nat.zero_add])
    exact ⟨_, .encoder (hr ▸ Tx.Effect.req hst hlen hfill)⟩
  · exact ⟨_, .encoder (hr ▸ Tx.Effect.reqOversize hst hlen (by decide))⟩

/-- A ready sink that selects an operation gets its byte. -/
theorem effect_of_decode_sink (hinv : Inv s) (hi : decode (.sink s.tx.view) = .ok i) :
    ∃ t, s.Effect i t := by
  have latched : s.tx.state ≠ .idle → ∃ d, memRange s.tx.buf 0 s.tx.len.toNat = .ok d := by
    intro hst
    obtain ⟨p, -, -, hlen, hp⟩ := hinv.inv8 hst
    exact ⟨p, by rw [hlen, hp]⟩
  rcases decode_sink_iff.mp hi with ⟨hst, rfl⟩ | ⟨hst, rfl⟩ | ⟨hst, rfl⟩ | ⟨hst, hlt, rfl⟩ | ⟨hst, rfl⟩ <;>
    replace hst : s.tx.state = _ := hst
  · exact ⟨_, .encoder (.sync0 hst)⟩
  · exact ⟨_, .encoder (.sync1 hst)⟩
  · exact ⟨_, .encoder (.len hst)⟩
  · obtain ⟨d, hd⟩ := latched (by simp [hst])
    obtain ⟨v, -, hv⟩ := (memRange_ok.mp hd).2 _ hlt
    exact ⟨_, .encoder (.data hst hlt (by rwa [Nat.zero_add] at hv))⟩
  · obtain ⟨d, hd⟩ := latched (by simp [hst])
    exact ⟨_, .encoder (.csum hst hd)⟩

/-- With the invariants a ready sink selects nothing only in `Idle`. -/
theorem decode_sink_error (hinv : Inv s) (he : decode (.sink s.tx.view) = .error e) :
    e = .nothingToEmit := by
  cases hst : s.tx.state with
  | idle =>
    rw [decode_sink_idle (v := s.tx.view) hst] at he
    cases he
    rfl
  | data =>
    have hlt : s.tx.cursor.toNat < s.tx.len.toNat := hinv.inv7 hst
    simp [decode, decodeSink, Tx.view, hst, hlt] at he
  | _ => simp [decode, decodeSink, Tx.view, hst] at he

end

/-- The operation a turn selects has an effect. -/
theorem effect_of_selected {s : State} {turn : Turn} {w : Presented} {i : Instr} (hinv : Inv s)
    (hw : presented turn s = some w) (hi : decode w = .ok i) : ∃ t, s.Effect i t := by
  cases turn with
  | rx =>
    obtain ⟨b, hb, rfl⟩ := Option.map_eq_some_iff.mp hw
    exact effect_of_decode_rxByte hinv hb hi
  | take =>
    cases hw
    cases hov : s.rx.outValid with
    | true =>
      rw [hov] at hi
      cases hi
      exact ⟨_, .take hov⟩
    | false =>
      rw [hov] at hi
      cases hi
  | request =>
    obtain ⟨p, hp, rfl⟩ := Option.map_eq_some_iff.mp hw
    exact effect_of_decode_request hp hi
  | sink =>
    cases hw
    exact effect_of_decode_sink hinv hi
  | wire bs =>
    cases hw
    obtain ⟨p, rfl, hp, rfl⟩ := decode_wire_ok hi
    exact ⟨_, .frame hp⟩
  | present p => cases hw

/-- Where a turn selects nothing, its agent waits. -/
theorem unselected_eq_wait {s : State} {turn : Turn} {w : Presented} {e : DecodeError} (hinv : Inv s)
    (hadm : ∀ p ∈ s.env.requests, p.length ≤ Config.maxRequest) (hwire : ∀ bs, turn ≠ .wire bs)
    (hw : presented turn s = some w) (he : decode w = .error e) : unselected e s = .wait s := by
  cases turn with
  | rx =>
    obtain ⟨b, -, rfl⟩ := Option.map_eq_some_iff.mp hw
    rw [decode_rxByte_error hinv he]
    rfl
  | take =>
    cases hw
    cases hov : s.rx.outValid <;> rw [hov] at he <;> cases he
    rfl
  | request =>
    obtain ⟨p, hp, rfl⟩ := Option.map_eq_some_iff.mp hw
    rw [decode_request_error (hadm p (List.mem_of_head? hp)) he]
    rfl
  | sink =>
    cases hw
    rw [decode_sink_error hinv he]
    rfl
  | wire bs => exact absurd rfl (hwire bs)
  | present p => cases hw

/-- No operation presents a request or touches the schedule. -/
theorem State.Effect.requests_subset {s t : State} {i : Instr} (h : s.Effect i t) :
    (∀ p ∈ t.env.requests, p ∈ s.env.requests) ∧ t.env.agenda = s.env.agenda := by
  cases h with
  | encoder h =>
    refine ⟨?_, rfl⟩
    generalize s.env.requests = rs at h
    cases h with
    | req => exact fun p hp => List.mem_cons_of_mem _ hp
    | reqOversize => exact fun p hp => List.mem_cons_of_mem _ hp
    | _ => exact fun p hp => hp
  | _ => exact ⟨fun p hp => hp, rfl⟩

theorem State.Effect.keeps_admitted {s t : State} {i : Instr} (h : s.Effect i t) (hadm : Admitted s) :
    Admitted t := by
  obtain ⟨hreq, hag⟩ := h.requests_subset
  exact ⟨fun p hp => hadm.1 p (hreq p hp), hag ▸ hadm.2⟩

/-- Moving on in the schedule admits nothing new. -/
theorem Admitted.withAgenda {s : State} {a : List Moment} (hadm : Admitted s)
    (ha : ∀ m ∈ a, ∃ m' ∈ s.env.agenda, m'.turn = m.turn) : Admitted (s.withAgenda a) := by
  refine ⟨hadm.1, fun m hm p hp => ?_⟩
  obtain ⟨m', hm', hturn⟩ := ha m hm
  exact hadm.2 m' hm' p (hturn.trans hp)

theorem Admitted.present {s : State} {p : Payload} (hadm : Admitted s)
    (hp : p.length ≤ Config.maxRequest) : Admitted (s.present p) := by
  refine ⟨fun q hq => ?_, hadm.2⟩
  rcases List.mem_append.mp hq with hq | hq
  · exact hadm.1 q hq
  · rw [List.mem_singleton.mp hq]
    exact hp

/-- Settles O39: a selected operation has an effect, and where none is selected the agent waits; the one request a turn
could refuse is ruled out by what is admitted. -/
theorem stepNeverStops : Obligations.StepNeverStops := by
  intro s hinv hadm
  rcases fetch_cases s with ⟨-, hf⟩ | ⟨m, ms, ha, ⟨-, hf⟩ | ⟨-, hf⟩⟩
  · exact ⟨s, step_of_wait hf, hadm⟩
  · refine ⟨_, step_of_run hf, State.Effect.keeps_admitted .reset (hadm.withAgenda ?_)⟩
    rw [ha]
    rintro m' (_ | ⟨_, hm'⟩)
    · exact ⟨m, List.mem_cons_self, rfl⟩
    · exact ⟨m', List.mem_cons_of_mem m hm', rfl⟩
  · have hinv' : Inv (s.withAgenda ms) := hinv.of_sameBlock ⟨rfl, rfl, rfl⟩
    have hadm' : Admitted (s.withAgenda ms) :=
      hadm.withAgenda fun m' hm' => ⟨m', ha ▸ List.mem_cons_of_mem m hm', rfl⟩
    rcases fetchTurn_cases m.turn (s.withAgenda ms) with
      ⟨w, i, hw, hi, hturn⟩ | ⟨w, e, hw, he, hwire, hturn⟩ | ⟨bs, -, hturn⟩ | ⟨p, hp, hturn⟩ | hturn
    · obtain ⟨t, heff⟩ := effect_of_selected hinv' hw hi
      exact ⟨t, (step_of_run (hf.trans hturn)).trans heff.exec_eq, heff.keeps_admitted hadm'⟩
    · rw [unselected_eq_wait hinv' hadm'.1 hwire hw he] at hturn
      exact ⟨_, step_of_wait (hf.trans hturn), hadm'⟩
    · exact ⟨_, step_of_wait (hf.trans hturn), hadm'⟩
    · have hlen : p.length ≤ Config.maxRequest := hadm.2 m (ha ▸ List.mem_cons_self) p hp
      rw [if_pos hlen] at hturn
      exact ⟨_, step_of_wait (hf.trans hturn), hadm'.present hlen⟩
    · exact ⟨_, step_of_wait (hf.trans hturn), hadm'⟩

end Sys2Proof.Machine
end


section
/-! The two halves are independent (10_state.md R28, 00_scope.md R41): each operation reads and writes its own half, so
operations of different halves commute. -/
namespace Sys2Proof.Machine

/-- Does a transfer belong to TX? -/
def Obs.ofTx : Obs → Bool
  | .consumed _ => false
  | .delivered _ => false
  | .taken => false
  | .accepted _ => true
  | .raised e => !e.ofRx
  | .pushed _ => true
  | .wasReset => false

/-- The machine after an operation of RX: its registers, the input it leaves, and its transfers. -/
def State.afterRx (r : Rx) (ins : List Byte) (l : List Obs) (s : State) : State :=
  { s with rx := r, env := { s.env with rxIn := ins }, trace := s.trace ++ l }

theorem Rx.Effect.obs_ofTx {carry : Bool} {r r' : Rx} {b : Byte} {i : Instr} {o : RxOut}
    (h : r.Effect carry b i r' o) : ∀ a ∈ [Obs.consumed b] ++ o.obs, a.ofTx = false := by
  cases h <;> simp [RxOut.obs, Obs.ofTx, Event.ofRx]

theorem Tx.Effect.obs_ofTx {x x' : Tx} {rs rs' : List Payload} {i : Instr} {o : Obs}
    (h : x.Effect rs i x' rs' o) : o.ofTx = true := by
  cases h <;> rfl

theorem isRx_cases {i : Instr} (h : isRx i = true) : i = .rxTake ∨ ∃ b, rxOperand i = some b := by
  cases i with
  | rxTake => exact .inl rfl
  | _ => exact .inr (Option.isSome_iff_exists.mp h)

/-- An operation of RX depends on its registers and the input alone, wherever it is performed. -/
theorem exec_rx_anywhere {i : Instr} {s t : State} (hi : isRx i = true) (h : exec i s = .next t) :
    ∃ r ins l, t = s.afterRx r ins l ∧ (∀ a ∈ l, a.ofTx = false) ∧
      ∀ s' : State, s'.rx = s.rx → s'.env.rxIn = s.env.rxIn → exec i s' = .next (s'.afterRx r ins l) := by
  rcases isRx_cases hi with rfl | ⟨b, hb⟩
  · obtain ⟨hov, rfl⟩ := execRxTake_next h
    refine ⟨s.rx.take, s.env.rxIn, [.taken], rfl, by simp [Obs.ofTx], fun s' hrx hin => ?_⟩
    rw [← hrx] at hov
    rw [← hrx, ← hin]
    exact execRxTake_eq hov
  · obtain ⟨rest, r, o, hin, hov, heff, rfl⟩ := exec_byte hb h
    refine ⟨r, rest, [.consumed b] ++ o.obs, ?_, heff.obs_ofTx, fun s' hrx hin' => ?_⟩
    · simp only [State.afterByte, State.afterRx, List.append_assoc]
    · rw [← hrx] at hov heff
      rw [heff.exec_eq (hin'.trans hin) hov]
      simp only [State.afterByte, State.afterRx, List.append_assoc]

/-- An operation of TX depends on its registers and the requests alone, wherever it is performed. -/
theorem exec_tx_anywhere {i : Instr} {s t : State} (hi : isTx i = true) (h : exec i s = .next t) :
    ∃ x rs o, t = s.afterTx x rs o ∧ o.ofTx = true ∧
      ∀ s' : State, s'.tx = s.tx → s'.env.requests = s.env.requests →
        exec i s' = .next (s'.afterTx x rs o) := by
  obtain ⟨x, rs, o, heff, rfl⟩ := exec_encoder hi h
  refine ⟨x, rs, o, rfl, heff.obs_ofTx, fun s' htx hr => ?_⟩
  rw [← htx, ← hr] at heff
  exact heff.exec_eq

/-- The same registers, buffers and inputs, and the same sequences of each half's transfers. -/
def State.SameHalves (u' u : State) : Prop :=
  u'.rx = u.rx ∧ u'.tx = u.tx ∧ u'.env = u.env ∧
    u'.consumedBytes = u.consumedBytes ∧ u'.deliveredPayloads = u.deliveredPayloads ∧
    u'.pushedBytes = u.pushedBytes ∧ u'.acceptedPayloads = u.acceptedPayloads ∧
    u'.raisedEvents.filter Event.ofRx = u.raisedEvents.filter Event.ofRx ∧
    u'.raisedEvents.filter (fun e => !e.ofRx) = u.raisedEvents.filter (fun e => !e.ofRx)

theorem State.SameHalves.symm {u' u : State} (h : u'.SameHalves u) : u.SameHalves u' := by
  obtain ⟨h1, h2, h3, h4, h5, h6, h7, h8, h9⟩ := h
  exact ⟨h1.symm, h2.symm, h3.symm, h4.symm, h5.symm, h6.symm, h7.symm, h8.symm, h9.symm⟩

/-- A sequence read off the trace does not see in which order two parts stand of which it reads at most one. -/
theorem filterMap_swap {α β : Type} {f : α → Option β} {before l : List α} {o : α}
    (h : f o = none ∨ ∀ a ∈ l, f a = none) :
    (before ++ [o] ++ l).filterMap f = (before ++ l ++ [o]).filterMap f := by
  rcases h with h | h
  · simp [h]
  · have hl : l.filterMap f = [] := List.filterMap_eq_nil_iff.mpr h
    simp only [List.filterMap_append, hl, List.append_nil]

/-- What the transfers of the other half leave out. -/
theorem Obs.ofTx_true {o : Obs} (h : o.ofTx = true) :
    o.consumed? = none ∧ o.delivered? = none ∧ o.raised?.filter Event.ofRx = none := by
  cases o with
  | accepted p => exact ⟨rfl, rfl, rfl⟩
  | pushed b => exact ⟨rfl, rfl, rfl⟩
  | raised e => exact ⟨rfl, rfl, by simpa [Obs.ofTx, Obs.raised?] using h⟩
  | _ => cases h

theorem Obs.ofTx_false {o : Obs} (h : o.ofTx = false) :
    o.pushed? = none ∧ o.accepted? = none ∧ o.raised?.filter (fun e => !e.ofRx) = none := by
  cases o with
  | accepted p => cases h
  | pushed b => cases h
  | raised e => exact ⟨rfl, rfl, by simpa [Obs.ofTx, Obs.raised?] using h⟩
  | _ => exact ⟨rfl, rfl, rfl⟩

/-- Performed in either order, an operation of each half leaves the same halves. -/
theorem State.afterTx_afterRx_sameHalves {s : State} {r : Rx} {ins : List Byte} {l : List Obs} {x : Tx}
    {rs : List Payload} {o : Obs} (hl : ∀ a ∈ l, a.ofTx = false) (ho : o.ofTx = true) :
    ((s.afterTx x rs o).afterRx r ins l).SameHalves ((s.afterRx r ins l).afterTx x rs o) := by
  obtain ⟨hcons, hdel, hrx⟩ := Obs.ofTx_true ho
  refine ⟨rfl, rfl, rfl, filterMap_swap (.inl hcons), filterMap_swap (.inl hdel),
    filterMap_swap (.inr fun a ha => ?_), filterMap_swap (.inr fun a ha => ?_), ?_, ?_⟩
  · exact (Obs.ofTx_false (hl a ha)).1
  · exact (Obs.ofTx_false (hl a ha)).2.1
  · simp only [State.raisedEvents, List.filter_filterMap]
    exact filterMap_swap (.inl hrx)
  · simp only [State.raisedEvents, List.filter_filterMap]
    exact filterMap_swap (.inr fun a ha => (Obs.ofTx_false (hl a ha)).2.2)

/-- Settles O43: each operation can be performed where the other has been, with the same result on its half. -/
theorem halvesCommute : Obligations.HalvesCommute := by
  rintro i j s t u (⟨hi, hj⟩ | ⟨hi, hj⟩) hit hju
  · obtain ⟨r, ins, l, rfl, hl, hrx⟩ := exec_rx_anywhere hi hit
    obtain ⟨x, rs, o, rfl, ho, htx⟩ := exec_tx_anywhere hj hju
    exact ⟨s.afterTx x rs o, _, htx s rfl rfl, hrx _ rfl rfl, State.afterTx_afterRx_sameHalves hl ho⟩
  · obtain ⟨x, rs, o, rfl, ho, htx⟩ := exec_tx_anywhere hi hit
    obtain ⟨r, ins, l, rfl, hl, hrx⟩ := exec_rx_anywhere hj hju
    exact ⟨s.afterRx r ins l, _, hrx s rfl rfl, htx _ rfl rfl,
      (State.afterTx_afterRx_sameHalves hl ho).symm⟩

end Sys2Proof.Machine
end

section
/-! Lists of operations (R98, R120, R121), one at a time. -/
namespace Sys2Proof.Machine

theorem State.Effect.execAll_cons {i : Instr} {is : List Instr} {s u : State} (h : s.Effect i u) :
    execAll (i :: is) s = execAll is u := by
  simp only [execAll, h.exec_eq]

theorem execAll_cons_next {i : Instr} {is : List Instr} {s t : State}
    (h : execAll (i :: is) s = .next t) : ∃ u, s.Effect i u ∧ execAll is u = .next t := by
  unfold execAll at h
  split at h
  · exact ⟨_, exec_next_iff.mp ‹_›, h⟩
  · cases h
  · cases h

theorem execAll_append {is js : List Instr} {s u : State} (h : execAll is s = .next u) :
    execAll (is ++ js) s = execAll js u := by
  induction is generalizing s with
  | nil =>
    cases h
    rfl
  | cons i is ih =>
    obtain ⟨v, heff, h⟩ := execAll_cons_next h
    rw [List.cons_append, heff.execAll_cons, ih h]

/-- What every operation but a reset keeps, a list of operations without a reset keeps. -/
theorem execAll_keeps {P : State → Prop} {is : List Instr} {s t : State}
    (hstep : ∀ i s t, i ≠ .reset → s.Effect i t → P s → P t) (his : Instr.reset ∉ is)
    (h : execAll is s = .next t) (hs : P s) : P t := by
  induction is generalizing s with
  | nil =>
    cases h
    exact hs
  | cons i is ih =>
    obtain ⟨hi, his⟩ : Instr.reset ≠ i ∧ Instr.reset ∉ is := by simpa using his
    obtain ⟨u, heff, h⟩ := execAll_cons_next h
    exact ih his h (hstep i s u hi.symm heff hs)

end Sys2Proof.Machine
end

section
/-! The counting law R120 (spec/42_stream_functions.md section 5). -/
namespace Sys2Proof.Machine

theorem hits_cons (i : Instr) (is : List Instr) : hits (i :: is) = hits [i] + hits is := by
  simp only [hits, ← List.length_append, ← List.filter_append, List.singleton_append]

/-- The accounts of R120: payloads delivered, deframer events raised, and the frame in progress. -/
def accounts (s : State) : Nat := s.deliveredPayloads.length + rxEventCount s + inFlight s

theorem hits_of_ne {i : Instr} (h : i ≠ .rxSeekHit Config.sync1) : hits [i] = 0 := by
  simp [hits, h]

/-- What one output settles of the accounts. -/
def RxOut.count (o : RxOut) : Nat := o.payload?.toList.length + (o.event?.toList.filter Event.ofRx).length

/-- One if a deframer in this state has a frame in progress. -/
def RxState.inFlight : RxState → Nat
  | .seekingSync => 0
  | .awaitingLength => 1
  | .accumulating => 1

theorem inFlight_eq (s : State) : inFlight s = RxState.inFlight s.rx.state := by
  unfold inFlight
  cases s.rx.state <;> rfl

theorem State.afterByte_accounts (s : State) (b : Byte) (rest : List Byte) (r : Rx) (o : RxOut) :
    accounts (s.afterByte b rest r o) + inFlight s = accounts s + o.count + RxState.inFlight r.state := by
  simp only [accounts, inFlight_eq, rxEventCount, RxOut.count, State.afterByte_deliveredPayloads,
    State.afterByte_raisedEvents, State.afterByte_rx, List.length_append, List.filter_append]
  omega

/-- A byte consumed opens a frame by a hit, and ends one by a payload or an event. -/
theorem Rx.Effect.count_eq {r r' : Rx} {b : Byte} {i : Instr} {o : RxOut} (h : r.Effect true b i r' o) :
    hits [i] + RxState.inFlight r.state = o.count + RxState.inFlight r'.state := by
  cases h with
  | seekHit hst hhit =>
    obtain ⟨-, -, rfl⟩ := syncHit_iff.mp hhit
    rw [hst]
    rfl
  | seekMiss hst => rw [hits_of_ne (by simp), Rx.seekMiss_state, hst]; rfl
  | lenOk hst => rw [hits_of_ne (by simp), hst]; rfl
  | lenOversize hst => rw [hits_of_ne (by simp), hst]; rfl
  | data hst => rw [hits_of_ne (by simp), Rx.data_state, hst]; rfl
  | csumOk hst => rw [hits_of_ne (by simp), hst]; rfl
  | csumFail hst => rw [hits_of_ne (by simp), hst]; rfl

theorem rxEventCount_eq (s : State) :
    rxEventCount s = (s.trace.filterMap fun o => o.raised?.filter Event.ofRx).length := by
  simp only [rxEventCount, State.raisedEvents, List.filter_filterMap]

/-- A transfer of TX is no event of the deframer. -/
theorem rxEventCount_afterTx {o : Obs} (s : State) (x : Tx) (rs : List Payload) (ho : o.ofTx = true) :
    rxEventCount (s.afterTx x rs o) = rxEventCount s := by
  obtain ⟨-, -, hrx⟩ := Obs.ofTx_true ho
  have hnil : ([o].filterMap fun a => a.raised?.filter Event.ofRx) = [] :=
    List.filterMap_cons_none hrx
  rw [rxEventCount_eq, rxEventCount_eq, State.afterTx_trace, List.filterMap_append, hnil, List.append_nil]

theorem hits_of_isTx {i : Instr} (h : isTx i = true) : hits [i] = 0 :=
  hits_of_ne (by rintro rfl; cases h)

/-- Every operation but a reset changes the accounts by its sync hit. -/
theorem State.Effect.accounts_eq {s t : State} {i : Instr} (h : s.Effect i t) (hi : i ≠ .reset) :
    accounts t = hits [i] + accounts s := by
  cases h with
  | @byte b rest _ r o hin hov h =>
    have hcount := h.count_eq
    have hacc := s.afterByte_accounts b rest r o
    rw [inFlight_eq] at hacc
    omega
  | encoder h =>
    obtain ⟨-, hdel⟩ := h.obs_rx
    simp [accounts, hits_of_isTx h.isTx, rxEventCount_afterTx s _ _ h.obs_ofTx, hdel, inFlight_eq]
  | take => simp [accounts, hits_of_ne, rxEventCount, inFlight_eq]
  | reset => exact absurd rfl hi
  | frame => simp [accounts, hits_of_ne, rxEventCount, inFlight_eq]

/-- Settles O54, by induction on the operations. -/
theorem everySyncHitIsAccountedFor : Obligations.EverySyncHitIsAccountedFor := by
  intro is s t his h
  have hrun : accounts t = hits is + accounts s := by
    induction is generalizing s with
    | nil =>
      cases h
      exact (Nat.zero_add _).symm
    | cons i is ih =>
      obtain ⟨hi, his⟩ : Instr.reset ≠ i ∧ Instr.reset ∉ is := by simpa using his
      obtain ⟨u, heff, h⟩ := execAll_cons_next h
      rw [ih u his h, heff.accounts_eq hi.symm, hits_cons i is]
      omega
  simp only [accounts] at hrun
  omega

end Sys2Proof.Machine
end

section
/-! The frames of TX (R98, R121): while a payload is latched, the emit operations push the bytes of its frame. -/
namespace Sys2Proof.Machine

/-- The latch holds the legal payload `p`. -/
structure Tx.Holds (x : Tx) (p : Payload) : Prop where
  legal : p.length ≤ Config.maxLen
  len : x.len.toNat = p.length
  latch : memRange x.buf 0 p.length = .ok p
  cursor : x.state = .data → x.cursor.toNat < x.len.toNat

/-- How many bytes of its frame a busy encoder has pushed. -/
def Tx.emitted (x : Tx) : Nat :=
  match x.state with
  | .idle => 0
  | .sync0 => 0
  | .sync1 => 1
  | .len => 2
  | .data => 3 + x.cursor.toNat
  | .csum => 3 + x.len.toNat

section
variable {x x' : Tx} {rs rs' : List Payload} {i : Instr} {o : Obs} {p : Payload}

theorem frameBytes_getElem?_payload {k : Nat} (hk : k < p.length) : (frameBytes p)[3 + k]? = p[k]? := by
  rw [frameBytes, List.append_assoc, List.getElem?_append_right (Nat.le_add_right 3 k),
    List.getElem?_append_left (by simpa using hk)]
  simp

theorem frameBytes_getElem?_csum : (frameBytes p)[3 + p.length]? = some (csum p) := by
  have hlen : ([Config.sync0, Config.sync1, BitVec.ofNat 8 p.length] ++ p).length = 3 + p.length := by
    rw [List.length_append]
    rfl
  rw [frameBytes, List.getElem?_append_right hlen.le, hlen, Nat.sub_self]
  rfl

theorem Tx.Holds.lengthByte (hp : x.Holds p) : x.len = BitVec.ofNat 8 p.length := by
  rw [← hp.len, BitVec.ofNat_toNat, BitVec.setWidth_eq]

/-- An emit operation pushes the next byte of the frame; the last one leaves the encoder idle. -/
theorem Tx.Effect.pushes_next (h : x.Effect rs i x' rs' o) (hp : x.Holds p) (hst : x.state ≠ .idle) :
    ∃ v, o = .pushed v ∧ (frameBytes p)[x.emitted]? = some v ∧
      ((x'.state ≠ .idle ∧ x'.Holds p ∧ x'.emitted = x.emitted + 1) ∨
        (x'.state = .idle ∧ x.emitted + 1 = (frameBytes p).length)) := by
  have hlen := hp.len
  have holds : x'.len = x.len → x'.buf = x.buf → x'.Holds p := fun hl hb =>
    ⟨hp.legal, hl ▸ hp.len, hb ▸ hp.latch, h.cursor_lt⟩
  cases h with
  | req hst' => exact absurd hst' hst
  | reqOversize hst' => exact absurd hst' hst
  | sync0 hst' =>
    refine ⟨_, rfl, ?_, .inl ⟨by simp, holds rfl rfl, ?_⟩⟩ <;> simp [Tx.emitted, hst', frameBytes]
  | sync1 hst' =>
    refine ⟨_, rfl, ?_, .inl ⟨by simp, holds rfl rfl, ?_⟩⟩ <;> simp [Tx.emitted, hst', frameBytes]
  | len hst' =>
    refine ⟨_, rfl, ?_, .inl ⟨?_, holds rfl rfl, ?_⟩⟩
    · simp [Tx.emitted, hst', frameBytes, hp.lengthByte]
    · by_cases h0 : x.len.toNat = 0 <;> simp [h0]
    · by_cases h0 : x.len.toNat = 0 <;> simp [Tx.emitted, hst', h0]
  | @data _ v hst' hlt hv =>
    have hget : p[x.cursor.toNat]? = some v := by
      obtain ⟨w, hw, hread⟩ := (memRange_ok.mp hp.latch).2 _ (hlt.trans_eq hlen)
      rw [Nat.zero_add, hv] at hread
      cases hread
      exact hw
    refine ⟨v, rfl, ?_, .inl ⟨?_, holds rfl rfl, ?_⟩⟩
    · simp only [Tx.emitted, hst']
      rw [frameBytes_getElem?_payload (hlt.trans_eq hlen), hget]
    · by_cases hlast : x.cursor.toNat + 1 = x.len.toNat <;> simp [hlast]
    · by_cases hlast : x.cursor.toNat + 1 = x.len.toNat <;>
        simp only [Tx.emitted, hst', hlast, if_true, if_false, toNat_add_one_of_lt hlt] <;> omega
  | csum hst' hd =>
    rw [hlen, hp.latch] at hd
    cases hd
    refine ⟨_, rfl, ?_, .inr ⟨rfl, ?_⟩⟩
    · simp only [Tx.emitted, hst', hlen]
      exact frameBytes_getElem?_csum
    · simp only [Tx.emitted, hst', frameBytes_length, Config.overhead, hlen]
      omega

/-- An accepted request is held with nothing of its frame pushed; an idle encoder does nothing else. -/
theorem Tx.Effect.of_idle (h : x.Effect rs i x' rs' o) (hst : x.state = .idle) :
    (∃ p, o = .accepted p ∧ x'.state ≠ .idle ∧ x'.Holds p ∧ x'.emitted = 0) ∨
      (x'.state = .idle ∧ o.accepted? = none ∧ o.pushed? = none) := by
  cases h with
  | req _ hp hfill =>
    exact .inl ⟨_, rfl, by simp,
      ⟨hp, toNat_lengthByte hp, (memFill_legal hp hfill).1, fun h => by cases h⟩, rfl⟩
  | reqOversize => exact .inr ⟨hst, rfl, rfl⟩
  | sync0 hst' => rw [hst] at hst'; cases hst'
  | sync1 hst' => rw [hst] at hst'; cases hst'
  | len hst' => rw [hst] at hst'; cases hst'
  | data hst' => rw [hst] at hst'; cases hst'
  | csum hst' => rw [hst] at hst'; cases hst'

end

/-- The output `out` of an encoder that has accepted the requests `ps`: whole frames, the last one up to what has been
emitted of it while it is in progress. -/
def Tx.Output (x : Tx) (ps : List Payload) (out : List Byte) : Prop :=
  (x.state = .idle ∧ out = ps.flatMap frameBytes) ∨
  (x.state ≠ .idle ∧ ∃ done p, ps = done ++ [p] ∧ x.Holds p ∧ x.emitted < (frameBytes p).length ∧
    out = done.flatMap frameBytes ++ (frameBytes p).take x.emitted)

theorem Tx.Holds.emitted_lt {x : Tx} {p : Payload} (hp : x.Holds p) :
    x.emitted < (frameBytes p).length := by
  have hlen := hp.len
  rw [frameBytes_length, Config.overhead, Tx.emitted]
  split
  case h_5 hst =>
    have hlt := hp.cursor hst
    omega
  all_goals omega

/-- Every operation of TX keeps the form of the output. -/
theorem Tx.Output.step {x x' : Tx} {rs rs' ps : List Payload} {i : Instr} {o : Obs} {out : List Byte}
    (hout : x.Output ps out) (h : x.Effect rs i x' rs' o) :
    x'.Output (ps ++ o.accepted?.toList) (out ++ o.pushed?.toList) := by
  rcases hout with ⟨hst, rfl⟩ | ⟨hst, done, p, rfl, hp, -, rfl⟩
  · rcases h.of_idle hst with ⟨p, rfl, hst', hp, hzero⟩ | ⟨hst', hacc, hpush⟩
    · exact .inr ⟨hst', ps, p, rfl, hp, hp.emitted_lt, by simp [hzero, Obs.pushed?]⟩
    · exact .inl ⟨hst', by simp [hacc, hpush]⟩
  · obtain ⟨v, rfl, hv, hnext⟩ := h.pushes_next hp hst
    have htake : (frameBytes p).take x.emitted ++ [v] = (frameBytes p).take (x.emitted + 1) := by
      rw [List.take_add_one, hv, Option.toList_some]
    rcases hnext with ⟨hst', hp', hem⟩ | ⟨hst', hem⟩
    · refine .inr ⟨hst', done, p, by simp [Obs.accepted?], hp', hp'.emitted_lt, ?_⟩
      simp only [Obs.pushed?, Option.toList_some, List.append_assoc, htake, hem]
    · refine .inl ⟨hst', ?_⟩
      simp only [Obs.pushed?, Obs.accepted?, Option.toList_some, Option.toList_none, List.append_nil,
        List.append_assoc, htake, hem, List.take_length, List.flatMap_append, List.flatMap_singleton]

/-- The output of a run that began in `s`. -/
def State.OutputSince (s t : State) : Prop :=
  ∃ ps out, t.acceptedPayloads = s.acceptedPayloads ++ ps ∧ t.pushedBytes = s.pushedBytes ++ out ∧
    t.tx.Output ps out

theorem State.Effect.keeps_outputSince {s₀ s t : State} {i : Instr} (hi : i ≠ .reset) (h : s.Effect i t)
    (hs : s₀.OutputSince s) : s₀.OutputSince t := by
  obtain ⟨ps, out, hacc, hpush, hout⟩ := hs
  cases h with
  | encoder h => exact ⟨_, _, by simp [hacc], by simp [hpush], hout.step h⟩
  | reset => exact absurd rfl hi
  | byte => exact ⟨ps, out, by simpa using hacc, by simpa using hpush, hout⟩
  | take => exact ⟨ps, out, by simpa using hacc, by simpa using hpush, hout⟩
  | frame => exact ⟨ps, out, hacc, hpush, hout⟩

/-- Settles O56: the form of the output holds with nothing accepted, and every operation but a reset keeps it. -/
theorem outputIsFramesOfRequests : Obligations.OutputIsFramesOfRequests := by
  intro is s t his hst h
  have hstart : s.OutputSince s := ⟨[], [], by simp, by simp, .inl ⟨hst, rfl⟩⟩
  obtain ⟨ps, out, hacc, hpush, hout⟩ :=
    execAll_keeps (P := s.OutputSince) (fun _ _ _ hi heff => heff.keeps_outputSince hi) his h hstart
  refine ⟨ps, hacc, ?_⟩
  rcases hout with ⟨hst', rfl⟩ | ⟨hst', done, p, rfl, -, hk, rfl⟩
  · exact .inl ⟨hst', hpush⟩
  · exact .inr ⟨hst', done, p, _, rfl, hk, by rw [hpush, List.append_assoc]⟩

end Sys2Proof.Machine
end

section
/-! One request, one frame (R98). -/
namespace Sys2Proof.Machine

/-- Between `s` and `t` the encoder has pushed the bytes `bs`: the latch, the deframer and the surroundings are the
same. -/
structure State.Emits (s : State) (bs : List Byte) (t : State) : Prop where
  rx : t.rx = s.rx
  env : t.env = s.env
  len : t.tx.len = s.tx.len
  buf : t.tx.buf = s.tx.buf
  trace : t.trace = s.trace ++ bs.map .pushed

theorem State.Emits.refl (s : State) : s.Emits [] s := ⟨rfl, rfl, rfl, rfl, by simp⟩

theorem State.Emits.trans {s t u : State} {bs cs : List Byte} (h : s.Emits bs t) (h' : t.Emits cs u) :
    s.Emits (bs ++ cs) u :=
  ⟨h'.rx.trans h.rx, h'.env.trans h.env, h'.len.trans h.len, h'.buf.trans h.buf,
    by rw [h'.trace, h.trace, List.map_append, List.append_assoc]⟩

/-- A byte pushed by an encoder that keeps length and latch. -/
theorem State.emits_push (s : State) {x : Tx} (v : Byte) (hlen : x.len = s.tx.len)
    (hbuf : x.buf = s.tx.buf) : s.Emits [v] (s.afterTx x s.env.requests (.pushed v)) :=
  ⟨rfl, rfl, hlen, hbuf, rfl⟩

section
variable {s : State}

theorem emits_txSync0 (hst : s.tx.state = .sync0) :
    ∃ t, s.Effect .txSync0 t ∧ s.Emits [Config.sync0] t ∧ t.tx.state = .sync1 :=
  ⟨_, .encoder (.sync0 hst), s.emits_push _ rfl rfl, rfl⟩

theorem emits_txSync1 (hst : s.tx.state = .sync1) :
    ∃ t, s.Effect .txSync1 t ∧ s.Emits [Config.sync1] t ∧ t.tx.state = .len :=
  ⟨_, .encoder (.sync1 hst), s.emits_push _ rfl rfl, rfl⟩

theorem emits_txLen (hst : s.tx.state = .len) :
    ∃ t, s.Effect .txLen t ∧ s.Emits [s.tx.len] t ∧ t.tx.cursor = 0#8 ∧
      t.tx.state = if s.tx.len.toNat = 0 then .csum else .data :=
  ⟨_, .encoder (.len hst), s.emits_push _ rfl rfl, rfl, rfl⟩

theorem emits_txData {v : Byte} (hst : s.tx.state = .data) (hlt : s.tx.cursor.toNat < s.tx.len.toNat)
    (hv : memRead s.tx.buf s.tx.cursor.toNat = .ok v) :
    ∃ t, s.Effect .txData t ∧ s.Emits [v] t ∧ t.tx.cursor.toNat = s.tx.cursor.toNat + 1 ∧
      t.tx.state = if s.tx.cursor.toNat + 1 = s.tx.len.toNat then .csum else .data :=
  ⟨_, .encoder (.data hst hlt hv), s.emits_push _ rfl rfl, toNat_add_one_of_lt hlt, rfl⟩

theorem emits_txCsum {d : Payload} (hst : s.tx.state = .csum)
    (hd : memRange s.tx.buf 0 s.tx.len.toNat = .ok d) :
    ∃ t, s.Effect .txCsum t ∧ s.Emits [csumFor s.tx.len.toNat d] t ∧ t.tx.state = .idle :=
  ⟨_, .encoder (.csum hst hd), s.emits_push _ rfl rfl, rfl⟩

end

/-- The data bytes `e` still to be pushed of the payload `d ++ e`, by induction on them. -/
theorem execAll_txData {s : State} {d e : Payload}
    (hst : s.tx.state = if e = [] then .csum else .data) (hcur : s.tx.cursor.toNat = d.length)
    (hlen : s.tx.len.toNat = (d ++ e).length)
    (hlatch : memRange s.tx.buf 0 (d ++ e).length = .ok (d ++ e)) :
    ∃ t, execAll (List.replicate e.length .txData) s = .next t ∧ s.Emits e t ∧ t.tx.state = .csum := by
  induction e generalizing s d with
  | nil => exact ⟨s, rfl, .refl s, hst⟩
  | cons v e ih =>
    have hlt : s.tx.cursor.toNat < s.tx.len.toNat := by
      rw [hcur, hlen, List.length_append, List.length_cons]
      omega
    have hv : memRead s.tx.buf s.tx.cursor.toNat = .ok v := by
      obtain ⟨w, hw, hread⟩ := (memRange_ok.mp hlatch).2 _ (hlt.trans_eq hlen)
      rw [hcur, List.getElem?_append_right le_rfl, Nat.sub_self] at hw
      cases hw
      rwa [Nat.zero_add] at hread
    have hlast : s.tx.cursor.toNat + 1 = s.tx.len.toNat ↔ e = [] := by
      rw [hcur, hlen, List.length_append, List.length_cons, ← List.length_eq_zero_iff]
      omega
    obtain ⟨t, heff, hemits, hcur', hst'⟩ := emits_txData hst hlt hv
    obtain ⟨u, hrun, hemits', hst''⟩ := ih (d := d ++ [v]) (s := t) (by simp only [hst', hlast])
      (by simp [hcur', hcur]) (by simpa [hemits.len] using hlen) (by simpa [hemits.buf] using hlatch)
    exact ⟨u, heff.execAll_cons.trans hrun, hemits.trans hemits', hst''⟩

/-- The emit operations of a frame push its bytes and leave the encoder idle. -/
theorem execAll_emitOps {s : State} {p : Payload} (hst : s.tx.state = .sync0) (hp : s.tx.Holds p) :
    ∃ t, execAll (emitOps p.length) s = .next t ∧ s.Emits (frameBytes p) t ∧ t.tx.state = .idle := by
  obtain ⟨s₁, heff₁, hem₁, hst₁⟩ := emits_txSync0 hst
  obtain ⟨s₂, heff₂, hem₂, hst₂⟩ := emits_txSync1 hst₁
  obtain ⟨s₃, heff₃, hem₃, hcur₃, hst₃⟩ := emits_txLen hst₂
  have hem : s.Emits ([Config.sync0] ++ [Config.sync1] ++ [s₂.tx.len]) s₃ := (hem₁.trans hem₂).trans hem₃
  obtain ⟨s₄, hrun₄, hem₄, hst₄⟩ := execAll_txData (s := s₃) (d := []) (e := p)
    (by rw [hst₃, (hem₁.trans hem₂).len, hp.len]; simp only [List.length_eq_zero_iff])
    (by rw [hcur₃]; rfl) (by rw [hem.len, hp.len]; rfl) (by rw [hem.buf]; exact hp.latch)
  obtain ⟨hlen₄, hbuf₄⟩ : s₄.tx.len.toNat = p.length ∧ s₄.tx.buf = s.tx.buf :=
    ⟨by rw [(hem.trans hem₄).len, hp.len], (hem.trans hem₄).buf⟩
  obtain ⟨t, heff, hem₅, hst₅⟩ := emits_txCsum hst₄ (by rw [hlen₄, hbuf₄]; exact hp.latch)
  refine ⟨t, ?_, ?_, hst₅⟩
  · have hhead : execAll [.txSync0, .txSync1, .txLen] s = .next s₃ := by
      rw [heff₁.execAll_cons, heff₂.execAll_cons, heff₃.execAll_cons]
      rfl
    rw [emitOps, execAll_append ((execAll_append hhead).trans hrun₄), heff.execAll_cons]
    rfl
  · have hbytes := (hem.trans hem₄).trans hem₅
    rwa [(hem₁.trans hem₂).len, hp.lengthByte, hlen₄] at hbytes

theorem State.pushAll_trace (bs : List Byte) (s : State) :
    (s.pushAll bs).trace = s.trace ++ bs.map .pushed := by
  induction bs generalizing s with
  | nil => simp [State.pushAll]
  | cons b bs ih =>
    have hcons : s.pushAll (b :: bs) = (s.push b).pushAll bs := rfl
    rw [hcons, ih, State.push_trace, List.map_cons, List.append_assoc, List.singleton_append]

/-- A legal request presented to an idle encoder is latched whole, in one step (R91). -/
theorem latches_txReq {s : State} {p : Payload} {rest : List Payload} (hr : s.env.requests = p :: rest)
    (hst : s.tx.state = .idle) (hp : p.length ≤ Config.maxLen) :
    ∃ x, s.Effect (.txReq p) (s.afterTx x rest (.accepted p)) ∧ x.state = .sync0 ∧ x.cursor = 0#8 ∧
      x.Holds p ∧ ∀ a, p.length ≤ a → x.buf.read a = s.tx.buf.read a := by
  obtain ⟨buf, hfill, -⟩ := memFill_spec (m := s.tx.buf) (i := 0) (p := p) (by rwa [Nat.zero_add])
  obtain ⟨hlatch, hbeyond, -⟩ := memFill_legal hp hfill
  exact ⟨_, .encoder (hr ▸ Tx.Effect.req hst hp hfill), rfl, rfl,
    ⟨hp, toNat_lengthByte hp, hlatch, fun h => by cases h⟩, hbeyond⟩

/-- Settles O55: accepting the request latches it, and the emit operations push its frame. -/
theorem oneRequestOneFrame : Obligations.OneRequestOneFrame := by
  intro s p rest hr hst hp
  obtain ⟨x, heff, hst₀, -, hholds, -⟩ := latches_txReq hr hst hp
  obtain ⟨t, hrun, hem, hst'⟩ := execAll_emitOps (s := s.afterTx x rest (.accepted p)) hst₀ hholds
  refine ⟨t, heff.execAll_cons.trans hrun, hst', hem.rx, hem.env, ?_⟩
  rw [hem.trace, State.pushAll_trace]
  rfl

end Sys2Proof.Machine
end


section
/-! The deframer's operations one by one (spec/40_deframer.md), each the step of its row's effect. -/
namespace Sys2Proof.Machine

/-- Settles O1: the row RX.SEEK.HIT, whose test the two sync bytes pass. -/
theorem seekHitOpensFrame : Obligations.SeekHitOpensFrame := by
  intro s rest hin hov hst hvalid hprev
  have hhit : syncHit s.rx.prevValid s.rx.prev 0x55#8 = true := syncHit_iff.mpr ⟨hvalid, hprev, rfl⟩
  exact (execRxSeekHit_eq hin hov hst hhit).trans (by simp [State.afterByte, RxOut.obs, Rx.seekHit, Rx.tail_carry])

/-- Settles O3: the row RX.LEN.OK. -/
theorem lengthByteStartsAccumulation : Obligations.LengthByteStartsAccumulation := by
  intro s b rest hin hov hst hb
  exact (execRxLenOk_eq hin hov hst hb).trans (by simp [State.afterByte, RxOut.obs, Rx.lenOk, Rx.tail_carry])

/-- Settles O4: the row RX.LEN.OVERSIZE, whose length byte can only be `FF`. -/
theorem oversizeLengthIsRejected : Obligations.OversizeLengthIsRejected := by
  intro s rest hin hov hst
  exact (execRxLenOversize_eq hin hov hst (by decide)).trans
    (by simp [State.afterByte, RxOut.obs, Rx.lenOversize, Rx.dropFrame, Rx.tail_carry])

/-- Settles O6: the row RX.CSUM.OK, at its test. -/
theorem goodChecksumDeliversPayload : Obligations.GoodChecksumDeliversPayload := by
  intro s b rest d hin hov hst hc hd hsum
  exact (execRxCsumOk_eq hin hov hst hc hd (csumOk_iff.mpr hsum)).trans
    (by simp [State.afterByte, RxOut.obs, Rx.csumOk, Rx.tail_carry])

/-- Settles O7: the row RX.CSUM.FAIL, at its test. -/
theorem badChecksumDropsPayload : Obligations.BadChecksumDropsPayload := by
  intro s b rest d hin hov hst hc hd hsum
  have hfail : csumOk s.rx.len d b = false := Bool.eq_false_iff.mpr (mt csumOk_iff.mp hsum)
  exact (execRxCsumFail_eq hin hov hst hc hd hfail).trans
    (by simp [State.afterByte, RxOut.obs, Rx.csumFail, Rx.dropFrame, Rx.tail_carry])

/-- Settles O8: the row RX.TAKE. -/
theorem takeReleasesPayload : Obligations.TakeReleasesPayload :=
  fun _ hov => execRxTake_eq hov

/-- Settles O5: the row RX.DATA; a cursor below a length of at most 254 is inside the buffer, and its successor does
not wrap. -/
theorem dataByteIsStoredAtCursor : Obligations.DataByteIsStoredAtCursor := by
  intro s b rest hin hov hst hlt hlen
  have hcap : s.rx.cursor.toNat < Config.rxCap := hlt.trans_le hlen
  refine ⟨_, execRxData_eq hin hov hst hlt hcap, ?_, ?_, ?_, ?_⟩
  · simp [State.afterByte, RxOut.obs, Rx.data, Rx.tail_carry]
  · simp only [State.afterByte_rx, Rx.data_cursor, toNat_add_one_of_lt hlt]
  · simp only [State.afterByte_rx, Rx.data_buf, Memory.read_write_same]
  · intro a ha
    simp only [State.afterByte_rx, Rx.data_buf, Memory.read_write_other _ b ha]

section
variable {carry : Bool} {r r' : Rx} {b : Byte} {i : Instr} {o : RxOut}

theorem Rx.Effect.len_frame (h : r.Effect carry b i r' o) :
    i = .rxSeekHit b ∨ i = .rxLenOk b ∨ r'.len = r.len := by
  cases h with
  | seekHit => exact .inl rfl
  | lenOk => exact .inr (.inl rfl)
  | _ => exact .inr (.inr (by simp [Rx.lenOversize, Rx.csumFail]))

theorem Rx.Effect.cursor_frame (h : r.Effect carry b i r' o) :
    i = .rxSeekHit b ∨ i = .rxLenOk b ∨ i = .rxData b ∨ r'.cursor = r.cursor := by
  cases h with
  | seekHit => exact .inl rfl
  | lenOk => exact .inr (.inl rfl)
  | data => exact .inr (.inr (.inl rfl))
  | _ => exact .inr (.inr (.inr (by simp [Rx.lenOversize, Rx.csumFail])))

theorem Rx.Effect.outValid_frame (h : r.Effect carry b i r' o) :
    i = .rxCsumOk b ∨ r'.outValid = r.outValid := by
  cases h with
  | csumOk => exact .inl rfl
  | _ => exact .inr (by simp [Rx.lenOversize, Rx.csumFail])

theorem Rx.Effect.state_frame (h : r.Effect carry b i r' o) :
    (i ≠ .rxSeekMiss b ∧ i ≠ .rxData b) ∨ r'.state = r.state := by
  cases h with
  | seekMiss => exact .inr (by simp)
  | data => exact .inr (by simp)
  | _ => exact .inl (by simp)

theorem Rx.Effect.buf_frame (h : r.Effect carry b i r' o) {a : Nat}
    (ha : ¬(i = .rxData b ∧ a = r.cursor.toNat)) : r'.buf.read a = r.buf.read a := by
  cases h with
  | data =>
    rw [Rx.data_buf]
    exact Memory.read_write_other _ b fun hac => ha ⟨rfl, hac⟩
  | _ => simp [Rx.lenOversize, Rx.csumFail]

end

/-- Settles O9: the tail writes the previous byte (R71), and each register has its frame. -/
theorem byteOperationsFrame : Obligations.ByteOperationsFrame := by
  intro i b s t hi h
  obtain ⟨rest, r, o, hin, -, heff, rfl⟩ := exec_byte hi h
  obtain ⟨hprev, hvalid⟩ := heff.prev_eq
  exact ⟨rfl, rfl, rfl, rfl, hin, hprev, hvalid, heff.len_frame, heff.cursor_frame, heff.outValid_frame,
    heff.state_frame, fun _ => heff.buf_frame⟩

end Sys2Proof.Machine
end

section
/-! The requests of TX, and what each of its operations leaves unchanged (spec/41_encoder.md). -/
namespace Sys2Proof.Machine

/-- Settles O10: the request is latched as `latches_txReq` says. -/
theorem requestIsLatched : Obligations.RequestIsLatched := by
  intro s p rest hr hst hp
  obtain ⟨x, heff, hsync, hcur, hholds, hbeyond⟩ := latches_txReq hr hst hp
  refine ⟨_, heff.exec_eq, ?_, hholds.len, hholds.latch, hbeyond⟩
  obtain ⟨st, len, cur, buf⟩ := x
  cases hsync
  cases hcur
  rfl

/-- Settles O11: the row TX.REQ.OVERSIZE, whose length can only be 255. -/
theorem oversizeRequestIsDiscarded : Obligations.OversizeRequestIsDiscarded :=
  fun _ _ _ hr hst hp => execTxReqOversize_eq hr hst hp (by decide)

section
variable {x x' : Tx} {rs rs' : List Payload} {i : Instr} {o : Obs}

theorem Tx.Effect.requests_frame (h : x.Effect rs i x' rs' o) :
    rs' = rs ∨ ∃ p, rs = p :: rs' ∧ (i = .txReq p ∨ ∃ n : Byte, i = .txReqOversize n ∧ n.toNat = p.length) := by
  cases h with
  | req => exact .inr ⟨_, rfl, .inl rfl⟩
  | reqOversize _ hn => exact .inr ⟨_, rfl, .inr ⟨_, rfl, hn.symm⟩⟩
  | _ => exact .inl rfl

theorem Tx.Effect.len_frame (h : x.Effect rs i x' rs' o) : (∃ p, i = .txReq p) ∨ x'.len = x.len := by
  cases h with
  | req => exact .inl ⟨_, rfl⟩
  | _ => exact .inr rfl

theorem Tx.Effect.cursor_frame (h : x.Effect rs i x' rs' o) :
    (∃ p, i = .txReq p) ∨ i = .txLen ∨ i = .txData ∨ x'.cursor = x.cursor := by
  cases h with
  | req => exact .inl ⟨_, rfl⟩
  | len => exact .inr (.inl rfl)
  | data => exact .inr (.inr (.inl rfl))
  | _ => exact .inr (.inr (.inr rfl))

theorem Tx.Effect.oversize_frame {n : Byte} (h : x.Effect rs (.txReqOversize n) x' rs' o) : x' = x := by
  cases h
  rfl

theorem Tx.Effect.buf_frame (h : x.Effect rs i x' rs' o) {a : Nat} (ha : ∀ p, i = .txReq p → p.length ≤ a) :
    x'.buf.read a = x.buf.read a := by
  cases h with
  | req _ hp hfill => exact (memFill_legal hp hfill).2.1 a (ha _ rfl)
  | _ => rfl

end

/-- Settles O17: an effect of TX touches nothing outside the encoder but the requests, and each register has its
frame. -/
theorem encoderOperationsFrame : Obligations.EncoderOperationsFrame := by
  intro i s t hi h
  obtain ⟨x, rs, o, heff, rfl⟩ := exec_encoder hi h
  refine ⟨rfl, rfl, rfl, rfl, heff.requests_frame, heff.len_frame, heff.cursor_frame, ?_,
    fun _ => heff.buf_frame⟩
  rintro ⟨n, rfl⟩
  exact heff.oversize_frame

end Sys2Proof.Machine
end

section
/-! `RESET` (spec/70_reset_and_hazards.md R150) and the wire format `FRAME` (spec/30_encoding.md R50). -/
namespace Sys2Proof.Machine

/-- Settles O18: the reset state, field by field. -/
theorem resetFromAnyState : Obligations.ResetFromAnyState :=
  fun s => ⟨s.afterReset, rfl, rfl, rfl, rfl, rfl, rfl, rfl⟩

/-- Settles O19: the bytes supplied are `frameBytes`, whose last byte completes the sum (R54). -/
theorem frameAppearsOnInput : Obligations.FrameAppearsOnInput := by
  intro s p hp
  exact ⟨BitVec.ofNat 8 p.length, csum p, toNat_lengthByte hp, (checksumLaw p).2, execFrame_eq s hp⟩

end Sys2Proof.Machine
end

section
/-! Operations outside their guards (00_scope.md R7, log 10), and the states the spec rules out (log 15). -/
namespace Sys2Proof.Machine

section
variable {s : State} {b : Byte}

/-- The common guard of R71 fails, or what the row itself asks for does, wherever the byte is taken. -/
theorem consuming_notEnabled {k : State → Result}
    (h : (s.rx.outValid = true ∨ s.env.rxIn.head? ≠ some b) ∨
      ∀ rest, k (s.popped b rest) = .refused .notEnabled) :
    consuming b s k = .refused .notEnabled := by
  unfold consuming
  split
  · rfl
  · rename_i c rest hin
    split
    · rename_i hg
      obtain ⟨rfl, hov⟩ := hg
      rcases h with (h | h) | h
      · simp [hov] at h
      · simp [hin] at h
      · exact h rest
    · rfl

theorem accumulating_notEnabled {k : Result}
    (h : s.rx.state ≠ .accumulating ∨ s.rx.cursor.toNat ≤ s.rx.len.toNat ∧ k = .refused .notEnabled) :
    accumulating s k = .refused .notEnabled := by
  by_cases hst : s.rx.state = .accumulating
  · rcases h with h | ⟨hc, hk⟩
    · exact absurd hst h
    · rw [accumulating_eq k hst hc, hk]
  · exact if_neg hst

theorem requested_notEnabled {k : Payload → State → Result}
    (h : s.tx.state ≠ .idle ∨
      ∀ p rest, s.env.requests.head? = some p → k p (s.requestGone rest) = .refused .notEnabled) :
    requested s k = .refused .notEnabled := by
  unfold requested
  split
  · rfl
  · rename_i p rest hr
    split
    · rename_i hst
      rcases h with h | h
      · exact absurd hst h
      · exact h p rest (by rw [hr]; rfl)
    · rfl

theorem emitting_notEnabled {st : TxState} {k : Result} (h : s.tx.state ≠ st) :
    emitting st s k = .refused .notEnabled :=
  if_neg h

/-- Every byte operation begins with the common guard and first action of R71. -/
theorem exec_eq_consuming {i : Instr} (hi : rxOperand i = some b) :
    ∃ k, ∀ s, exec i s = consuming b s k := by
  cases i with
  | rxSeekHit c => cases hi; exact ⟨_, fun s => show execRxSeekHit b s = _ from rfl⟩
  | rxSeekMiss c => cases hi; exact ⟨_, fun s => show execRxSeekMiss b s = _ from rfl⟩
  | rxLenOk c => cases hi; exact ⟨_, fun s => show execRxLenOk b s = _ from rfl⟩
  | rxLenOversize c => cases hi; exact ⟨_, fun s => show execRxLenOversize b s = _ from rfl⟩
  | rxData c => cases hi; exact ⟨_, fun s => show execRxData b s = _ from rfl⟩
  | rxCsumOk c => cases hi; exact ⟨_, fun s => show execRxCsumOk b s = _ from rfl⟩
  | rxCsumFail c => cases hi; exact ⟨_, fun s => show execRxCsumFail b s = _ from rfl⟩
  | _ => cases hi

/-- A byte operation while a payload is pending, or on a byte that is not the one available. -/
theorem exec_byte_notEnabled {i : Instr} (hi : rxOperand i = some b)
    (h : s.rx.outValid = true ∨ s.env.rxIn.head? ≠ some b) : exec i s = .refused .notEnabled := by
  obtain ⟨k, hk⟩ := exec_eq_consuming hi
  rw [hk]
  exact consuming_notEnabled (.inl h)

theorem execRxSeekHit_notEnabled
    (h : ¬(s.rx.state = .seekingSync ∧ s.rx.prevValid = true ∧ s.rx.prev = 0xFF#8 ∧ b = 0x55#8)) :
    execRxSeekHit b s = .refused .notEnabled :=
  consuming_notEnabled (.inr fun _ => if_neg fun hg => h ⟨hg.1, syncHit_iff.mp hg.2⟩)

theorem execRxSeekMiss_notEnabled
    (h : s.rx.state ≠ .seekingSync ∨ (s.rx.prevValid = true ∧ s.rx.prev = 0xFF#8 ∧ b = 0x55#8)) :
    execRxSeekMiss b s = .refused .notEnabled := by
  refine consuming_notEnabled (.inr fun _ => if_neg fun hg => ?_)
  obtain ⟨hst, hmiss⟩ := hg
  rcases h with h | h
  · exact h hst
  · exact Bool.eq_false_iff.mp hmiss (syncHit_iff.mpr h)

theorem execRxLenOk_notEnabled (h : ¬(s.rx.state = .awaitingLength ∧ b.toNat ≤ 254)) :
    execRxLenOk b s = .refused .notEnabled :=
  consuming_notEnabled (.inr fun _ => if_neg h)

theorem execRxLenOversize_notEnabled (h : ¬(s.rx.state = .awaitingLength ∧ b = 0xFF#8)) :
    execRxLenOversize b s = .refused .notEnabled :=
  consuming_notEnabled (.inr fun _ => if_neg fun hg => h ⟨hg.1, rxCap_lt_toNat_iff.mp hg.2⟩)

theorem execRxData_notEnabled (h : s.rx.state ≠ .accumulating ∨ s.rx.cursor = s.rx.len) :
    execRxData b s = .refused .notEnabled := by
  refine consuming_notEnabled (.inr fun rest => accumulating_notEnabled (s := s.popped b rest) ?_)
  exact h.imp_right fun hc => ⟨(congrArg _ hc).le, if_neg (congrArg _ hc).not_lt⟩

/-- A checksum operation outside `Accumulating`, before the last data byte, or against its test. -/
theorem atChecksum_notEnabled {k : Payload → Result}
    (h : s.rx.state ≠ .accumulating ∨ s.rx.cursor.toNat < s.rx.len.toNat) :
    atChecksum s k = .refused .notEnabled := by
  refine accumulating_notEnabled (h.imp_right fun hlt => ⟨hlt.le, if_neg fun hc => ?_⟩)
  exact hlt.ne (congrArg _ hc)

theorem execRxCsumOk_notEnabled (h : s.rx.state ≠ .accumulating ∨ s.rx.cursor.toNat < s.rx.len.toNat) :
    execRxCsumOk b s = .refused .notEnabled :=
  consuming_notEnabled (.inr fun rest => atChecksum_notEnabled (s := s.popped b rest) h)

theorem execRxCsumFail_notEnabled (h : s.rx.state ≠ .accumulating ∨ s.rx.cursor.toNat < s.rx.len.toNat) :
    execRxCsumFail b s = .refused .notEnabled :=
  consuming_notEnabled (.inr fun rest => atChecksum_notEnabled (s := s.popped b rest) h)

section
variable {d : Payload} (hst : s.rx.state = .accumulating) (hc : s.rx.cursor = s.rx.len)
  (hd : memRange s.rx.buf 0 s.rx.len.toNat = .ok d)
include hst hc hd

theorem execRxCsumOk_notEnabled_of_sum (hsum : (s.rx.len.toNat + byteSum d + b.toNat) % 256 ≠ 0) :
    execRxCsumOk b s = .refused .notEnabled := by
  refine consuming_notEnabled (.inr fun rest => ?_)
  rw [atChecksum_eq (s := s.popped b rest) _ hst hc hd]
  exact if_neg (mt csumOk_iff.mp hsum)

theorem execRxCsumFail_notEnabled_of_sum (hsum : (s.rx.len.toNat + byteSum d + b.toNat) % 256 = 0) :
    execRxCsumFail b s = .refused .notEnabled := by
  refine consuming_notEnabled (.inr fun rest => ?_)
  rw [atChecksum_eq (s := s.popped b rest) _ hst hc hd]
  exact if_neg (Bool.eq_false_iff.not_left.mpr (csumOk_iff.mpr hsum))

end

theorem execTxReq_notEnabled {p : Payload}
    (h : s.tx.state ≠ .idle ∨ s.env.requests.head? ≠ some p ∨ 254 < p.length) :
    execTxReq p s = .refused .notEnabled := by
  refine requested_notEnabled (h.imp_right fun h q rest hq => if_neg ?_)
  rintro ⟨rfl, hp⟩
  rcases h with h | h
  · exact h hq
  · exact Nat.not_le.mpr h hp

theorem execTxReqOversize_notEnabled {n : Byte}
    (h : s.tx.state ≠ .idle ∨ (∀ p : Payload, s.env.requests.head? = some p → p.length ≠ n.toNat) ∨
      n.toNat ≤ 254) : execTxReqOversize n s = .refused .notEnabled := by
  refine requested_notEnabled (h.imp_right fun h q rest hq => if_neg ?_)
  rintro ⟨hlen, hn⟩
  rcases h with h | h
  · exact h q hq hlen
  · exact Nat.not_le.mpr hn h

theorem execRxTake_notEnabled (h : s.rx.outValid = false) : execRxTake s = .refused .notEnabled :=
  if_neg (Bool.eq_false_iff.mp h)

theorem execFrame_notEnabled {p : Payload} (h : 254 < p.length) : execFrame p s = .refused .notEnabled :=
  if_neg (Nat.not_le.mpr h)

end

/-- Settles O27: each operation outside its guard. -/
theorem noStepWithoutGuard : Obligations.NoStepWithoutGuard := by
  intro s
  refine ⟨execRxTake_notEnabled, fun i b => exec_byte_notEnabled, fun b => ?_, fun p => execTxReq_notEnabled,
    fun n => execTxReqOversize_notEnabled, emitting_notEnabled, emitting_notEnabled, emitting_notEnabled,
    emitting_notEnabled, emitting_notEnabled, fun p => execFrame_notEnabled⟩
  exact ⟨execRxSeekHit_notEnabled, execRxSeekMiss_notEnabled, execRxLenOk_notEnabled,
    execRxLenOversize_notEnabled, execRxData_notEnabled,
    fun h => ⟨execRxCsumOk_notEnabled h, execRxCsumFail_notEnabled h⟩,
    fun d hst hc hd => ⟨execRxCsumOk_notEnabled_of_sum hst hc hd, execRxCsumFail_notEnabled_of_sum hst hc hd⟩⟩

theorem accumulating_cursorPastLength {s : State} (k : Result) (hst : s.rx.state = .accumulating)
    (hc : s.rx.len.toNat < s.rx.cursor.toNat) : accumulating s k = .fault .rxCursorPastLength := by
  simp only [accumulating, hst, hc, if_true]

/-- Settles O36: the guard of `Accumulating` faults on a cursor past the length, in the selection too; the buffer
primitive faults on an index above 253; and TX.DATA faults on a cursor at or past the length. -/
theorem ruledOutStatesFault : Obligations.RuledOutStatesFault := by
  intro s b rest
  refine ⟨fun hin hov hst => ⟨fun hc => ?_, fun hlt hge => ?_⟩, fun hst hc => ?_⟩
  · have hfault : ∀ k : State → Result, consuming b s (fun s => accumulating s (k s)) =
        .fault .rxCursorPastLength := fun k => by
      rw [consuming_eq _ hin hov, accumulating_cursorPastLength (s := s.popped b rest) _ hst hc]
    refine ⟨show execRxData b s = _ from hfault _, show execRxCsumOk b s = _ from hfault _,
      show execRxCsumFail b s = _ from hfault _, fun ms ha => ?_⟩
    have hdec : decode (.rxByte s.rx.view b) = .error .rxCursorPastLength :=
      decodeRx_cursorPastLength (v := s.rx.view) hov hst hc
    refine step_of_fault ((fetch_of_turn ha).trans ?_)
    exact fetchTurn_unselected (by simp) (by simp [presented, hin]) hdec
  · show execRxData b s = _
    rw [execRxData, consuming_eq _ hin hov, accumulating_eq (s := s.popped b rest) _ hst hlt.le]
    simp [hlt, memWrite_of_rxCap_le _ b (i := s.rx.cursor.toNat) hge, bufFault]
  · show execTxData s = _
    rw [execTxData, emitting_eq _ hst, if_neg (Nat.not_lt.mpr hc)]

end Sys2Proof.Machine
end


section
/-! The schedule (00_scope.md R5, R41; log 5): which entry brings an operation about, and who waits. -/
namespace Sys2Proof.Machine

/-- Settles O22: a selected operation is what the turn comes to. -/
theorem stepRunsTheSelectedOperation : Obligations.StepRunsTheSelectedOperation := by
  rintro s ⟨rst, turn⟩ ms w i ha hrst hw hi
  cases hrst
  exact step_of_run ((fetch_of_turn ha).trans (fetchTurn_selected hw hi))

/-- Settles O24: `fetch` looks at `rst` first. -/
theorem resetTakesPriority : Obligations.ResetTakesPriority :=
  fun _ _ _ ha => step_of_run (by simp only [fetch, ha, if_true])

/-- No effect reads or writes the schedule. -/
theorem State.Effect.withAgenda {s t : State} {i : Instr} (h : s.Effect i t) (a : List Moment) :
    (s.withAgenda a).Effect i (t.withAgenda a) := by
  cases h with
  | byte hin hov h => exact .byte (s := s.withAgenda a) hin hov h
  | encoder h => exact .encoder (s := s.withAgenda a) h
  | take hov => exact .take (s := s.withAgenda a) hov
  | reset => exact .reset (s := s.withAgenda a)
  | frame hp => exact .frame (s := s.withAgenda a) hp

theorem Rx.Effect.momentFor_eq {carry : Bool} {r r' : Rx} {b : Byte} {i : Instr} {o : RxOut}
    (h : r.Effect carry b i r' o) : momentFor i = ⟨false, .rx⟩ := by
  cases h <;> rfl

/-- The operations of TX come up under a request or a ready sink, and are then the ones selected (R56). -/
theorem Tx.Effect.selected {s : State} {x : Tx} {rs : List Payload} {i : Instr} {o : Obs}
    (h : s.tx.Effect s.env.requests i x rs o) :
    (momentFor i).rst = false ∧ ∃ w, presented (momentFor i).turn s = some w ∧ decode w = .ok i := by
  generalize hr : s.env.requests = rs₀ at h
  have request : ∀ {p rest}, s.env.requests = p :: rest →
      presented .request s = some (.request s.tx.view p) := fun hr => by rw [presented, hr]; rfl
  cases h with
  | req hst hp => exact ⟨rfl, _, request hr, decode_request_iff.mpr ⟨hst, .inl ⟨hp, rfl⟩⟩⟩
  | @reqOversize p rest n hst hn hgt =>
    obtain rfl : n = 0xFF#8 := maxLen_lt_toNat_iff.mp hgt
    exact ⟨rfl, _, request hr, decode_request_iff.mpr ⟨hst, .inr ⟨hn, rfl⟩⟩⟩
  | sync0 hst => exact ⟨rfl, _, rfl, decode_sink_iff.mpr (.inl ⟨hst, rfl⟩)⟩
  | sync1 hst => exact ⟨rfl, _, rfl, decode_sink_iff.mpr (.inr (.inl ⟨hst, rfl⟩))⟩
  | len hst => exact ⟨rfl, _, rfl, decode_sink_iff.mpr (.inr (.inr (.inl ⟨hst, rfl⟩)))⟩
  | data hst hlt => exact ⟨rfl, _, rfl, decode_sink_iff.mpr (.inr (.inr (.inr (.inl ⟨hst, hlt, rfl⟩))))⟩
  | csum hst => exact ⟨rfl, _, rfl, decode_sink_iff.mpr (.inr (.inr (.inr (.inr ⟨hst, rfl⟩))))⟩

/-- Under its entry of the schedule an operation that has an effect is the one selected. -/
theorem State.Effect.selected {s t : State} {i : Instr} (h : s.Effect i t) (hi : i ≠ .reset) :
    (momentFor i).rst = false ∧ ∃ w, presented (momentFor i).turn s = some w ∧ decode w = .ok i := by
  cases h with
  | byte hin hov h =>
    rw [h.momentFor_eq]
    exact ⟨rfl, _, by rw [presented, hin]; rfl, h.decode_eq hov⟩
  | encoder h => exact h.selected
  | take hov => exact ⟨rfl, _, rfl, decode_take_iff.mpr hov⟩
  | reset => exact absurd rfl hi
  | frame hp => exact ⟨rfl, _, rfl, decode_wire_frameBytes hp⟩

/-- Settles O23: the entry selects the operation, whose effect does not depend on the schedule. -/
theorem enabledOperationsCanBeScheduled : Obligations.EnabledOperationsCanBeScheduled := by
  intro i s t ms hi h
  have heff : (s.withAgenda ms).Effect i (t.withAgenda ms) := (exec_next_iff.mp h).withAgenda ms
  obtain ⟨hrst, w, hw, hdec⟩ := heff.selected hi
  have hstep := stepRunsTheSelectedOperation (s.withAgenda (momentFor i :: ms)) (momentFor i) ms w i rfl hrst
    hw hdec
  exact hstep.trans heff.exec_eq

/-- A turn that comes to a wait. -/
theorem step_of_turn_wait {s s' : State} {turn : Turn} {ms : List Moment}
    (ha : s.env.agenda = { rst := false, turn := turn } :: ms)
    (h : fetchTurn turn (s.withAgenda ms) = .wait s') : step s = .next s' :=
  step_of_wait ((fetch_of_turn ha).trans h)

section
variable {s : State}

theorem fetchTurn_rx_wait (h : s.env.rxIn = [] ∨ s.rx.outValid = true) : fetchTurn .rx s = .wait s := by
  cases hin : s.env.rxIn with
  | nil => exact fetchTurn_nothing (by simp) (by simp [presented, hin])
  | cons b rest =>
    have hov : s.rx.outValid = true := h.resolve_left (by simp [hin])
    have hdec : decode (.rxByte s.rx.view b) = .error .payloadPending :=
      decodeRx_pending (v := s.rx.view) hov
    exact fetchTurn_unselected (by simp) (by simp [presented, hin]) hdec

theorem fetchTurn_take_wait (h : s.rx.outValid = false) : fetchTurn .take s = .wait s :=
  fetchTurn_unselected (e := .nothingPending) (by simp) rfl (by rw [h]; rfl)

theorem fetchTurn_request_wait (h : s.env.requests = [] ∨
    s.tx.state ≠ .idle ∧ ∃ p rest, s.env.requests = p :: rest ∧ p.length ≤ 255) :
    fetchTurn .request s = .wait s := by
  rcases h with hr | ⟨hst, p, rest, hr, hp⟩
  · exact fetchTurn_nothing (by simp) (by simp [presented, hr])
  · have hdec : decode (.request s.tx.view p) = .error .encoderBusy := decode_request_busy hp hst
    exact fetchTurn_unselected (by simp) (by simp [presented, hr]) hdec

theorem fetchTurn_sink_wait (h : s.tx.state = .idle) : fetchTurn .sink s = .wait s :=
  fetchTurn_unselected (by simp) rfl (decode_sink_idle (v := s.tx.view) h)

end

/-- Settles O25: each agent with nothing enabled. -/
theorem disabledAgentsWait : Obligations.DisabledAgentsWait := by
  intro s ms
  refine ⟨fun ha => step_of_wait (by simp only [fetch, ha]), fun ha h => ?_, fun ha h => ?_, fun ha h => ?_,
    fun ha h => ?_⟩
  · exact step_of_turn_wait ha (fetchTurn_rx_wait (s := s.withAgenda ms) h)
  · exact step_of_turn_wait ha (fetchTurn_take_wait (s := s.withAgenda ms) h)
  · exact step_of_turn_wait ha (fetchTurn_request_wait (s := s.withAgenda ms) h)
  · exact step_of_turn_wait ha (fetchTurn_sink_wait (s := s.withAgenda ms) h)

/-- Settles O26: wire bytes that are a whole good frame come as FRAME, which supplies the same bytes. -/
theorem surroundingsOfferInputs : Obligations.SurroundingsOfferInputs := by
  intro s ms
  refine ⟨fun bs ha => ?_, fun p hp ha => step_of_turn_wait ha (fetchTurn_present hp)⟩
  cases hdec : decode (.wire bs) with
  | error e => exact step_of_turn_wait ha (fetchTurn_wire hdec)
  | ok i =>
    obtain ⟨p, rfl, hp, rfl⟩ := decode_wire_ok hdec
    have hstep := stepRunsTheSelectedOperation s _ ms _ _ ha rfl rfl hdec
    exact hstep.trans (execFrame_eq _ hp)

end Sys2Proof.Machine
end

section
/-! What an operation puts on the trace: events (60_exceptions.md R130 to R134) and bytes pushed. -/
namespace Sys2Proof.Machine

/-- The event an operation raises, if it raises one. -/
def eventOf : Instr → Option Event
  | .rxLenOversize b => some (.oversizeLength b)
  | .rxCsumFail b => some (.checksumMismatch b)
  | .txReqOversize n => some (.txOversize n)
  | _ => none

theorem Rx.Effect.event_eq {carry : Bool} {r r' : Rx} {b : Byte} {i : Instr} {o : RxOut}
    (h : r.Effect carry b i r' o) : o.event? = eventOf i := by
  cases h <;> rfl

theorem Tx.Effect.event_eq {x x' : Tx} {rs rs' : List Payload} {i : Instr} {o : Obs}
    (h : x.Effect rs i x' rs' o) : o.raised? = eventOf i := by
  cases h <;> rfl

/-- Every operation raises its event and no other. -/
theorem State.Effect.raisedEvents_eq {s t : State} {i : Instr} (h : s.Effect i t) :
    t.raisedEvents = s.raisedEvents ++ (eventOf i).toList := by
  cases h with
  | byte hin hov h => rw [State.afterByte_raisedEvents, h.event_eq]
  | encoder h => rw [State.afterTx_raisedEvents, h.event_eq]
  | _ => simp [eventOf]

/-- Settles O40: the event of each of the three operations, and none for the others. -/
theorem atMostOneEventPerStep : Obligations.AtMostOneEventPerStep := by
  intro i s t h
  have hev : t.raisedEvents = s.raisedEvents ++ (eventOf i).toList := (exec_next_iff.mp h).raisedEvents_eq
  refine ⟨?_, ?_, ?_, fun hother => ?_⟩
  · rintro b rfl
    exact hev
  · rintro b rfl
    exact hev
  · rintro n rfl
    exact hev
  · have hnone : eventOf i = none := by
      cases i with
      | rxLenOversize b => exact absurd rfl (hother b).2.1
      | rxCsumFail b => exact absurd rfl (hother b).1
      | txReqOversize n => exact absurd rfl (hother n).2.2
      | _ => rfl
    rw [hev, hnone, Option.toList_none, List.append_nil]

/-- Settles O33: the event raised is the operation's own, and its code and info byte are the operation's. -/
theorem eventCodeTellsTheCause : Obligations.EventCodeTellsTheCause := by
  intro i s t e h hraised
  have hev : t.raisedEvents = s.raisedEvents ++ (eventOf i).toList := (exec_next_iff.mp h).raisedEvents_eq
  have hone : eventOf i = some e := by
    rw [← Option.toList_eq_singleton_iff]
    exact List.append_cancel_left (hev.symm.trans hraised)
  cases i with
  | rxLenOversize b => cases hone; simp [Event.code, Event.info]
  | rxCsumFail b => cases hone; simp [Event.code, Event.info]
  | txReqOversize n => cases hone; simp [Event.code, Event.info]
  | _ => cases hone

/-- The emit operations of R93 to R97. -/
def emitInstrs : List Instr := [.txSync0, .txSync1, .txLen, .txData, .txCsum]

/-- An operation of TX pushes the byte on the port if it is an emit operation, and else nothing. -/
theorem Tx.Effect.pushed_eq {s : State} {x : Tx} {rs rs' : List Payload} {i : Instr} {o : Obs}
    (h : s.tx.Effect rs i x rs' o) :
    (i ∈ emitInstrs ∧ ∃ v, o.pushed? = some v ∧ s.txOutData = some v) ∨
      (i ∉ emitInstrs ∧ o.pushed? = none) := by
  cases h with
  | req => exact .inr ⟨by simp [emitInstrs], rfl⟩
  | reqOversize => exact .inr ⟨by simp [emitInstrs], rfl⟩
  | sync0 hst => exact .inl ⟨by simp [emitInstrs], _, rfl, by simp [State.txOutData, hst]⟩
  | sync1 hst => exact .inl ⟨by simp [emitInstrs], _, rfl, by simp [State.txOutData, hst]⟩
  | len hst => exact .inl ⟨by simp [emitInstrs], _, rfl, by simp [State.txOutData, hst]⟩
  | data hst hlt hv =>
    exact .inl ⟨by simp [emitInstrs], _, rfl, by simp [State.txOutData, hst, (memRead_ok.mp hv).2]⟩
  | csum hst hd => exact .inl ⟨by simp [emitInstrs], _, rfl, by simp [State.txOutData, hst, hd]⟩

theorem Rx.Effect.not_mem_emitInstrs {carry : Bool} {r r' : Rx} {b : Byte} {i : Instr} {o : RxOut}
    (h : r.Effect carry b i r' o) : i ∉ emitInstrs := by
  cases h <;> simp [emitInstrs]

/-- The output after an operation: one byte more, the one on the port, after an emit operation. -/
theorem State.Effect.pushedBytes_cases {s t : State} {i : Instr} (h : s.Effect i t) :
    (i ∈ emitInstrs ∧ ∃ v, s.txOutData = some v ∧ t.pushedBytes = s.pushedBytes ++ [v]) ∨
      (i ∉ emitInstrs ∧ t.pushedBytes = s.pushedBytes) := by
  cases h with
  | encoder h =>
    rcases h.pushed_eq with ⟨hi, v, hv, hport⟩ | ⟨hi, hnone⟩
    · exact .inl ⟨hi, v, hport, by simp [hv]⟩
    · exact .inr ⟨hi, by simp [hnone]⟩
  | byte hin hov h => exact .inr ⟨h.not_mem_emitInstrs, by simp⟩
  | _ => exact .inr ⟨by simp [emitInstrs], by simp⟩

/-- Settles O45: the two cases exclude each other. -/
theorem pushedByteIsOnPort : Obligations.PushedByteIsOnPort := by
  intro i s t h
  rcases (exec_next_iff.mp h).pushedBytes_cases with ⟨hi, hpush⟩ | ⟨hi, hsame⟩
  · exact ⟨fun _ => hpush, fun hnot => absurd hi hnot⟩
  · exact ⟨fun hmem => absurd hmem hi, fun _ => hsame⟩

/-- Settles O35: the guard of R71 takes the head of the input, and an effect on the deframer does not depend on the
bytes behind it. -/
theorem streamsAreInOrder : Obligations.StreamsAreInOrder := by
  intro i s
  refine ⟨fun b hi hin => ?_, fun ms ha hin => ?_, fun t h => ⟨fun b hi => ?_, ?_⟩⟩
  · exact exec_byte_notEnabled hi (.inr (by simp [hin]))
  · exact (disabledAgentsWait s ms).2.1 ha (.inl hin)
  · obtain ⟨rest, r, o, hin, hov, heff, rfl⟩ := exec_byte hi h
    refine ⟨hin, fun more => ?_⟩
    exact heff.exec_eq (s := { s with env := { s.env with rxIn := b :: more } }) rfl hov
  · rcases (exec_next_iff.mp h).pushedBytes_cases with ⟨-, v, -, hpush⟩ | ⟨-, hsame⟩
    · exact .inr ⟨v, hpush⟩
    · exact .inl hsame

end Sys2Proof.Machine
end

section
/-! The deframer as a whole: the pending payload (10_state.md R15, R16, R27) and the frame in progress (R70). -/
namespace Sys2Proof.Machine

/-- Settles O41: no byte operation is enabled, and what TX and the wire do leaves the deframer alone. -/
theorem pendingPayloadIsStable : Obligations.PendingPayloadIsStable := by
  intro i s t hpend h htake hreset
  cases exec_next_iff.mp h with
  | byte hin hov heff =>
    rw [hpend] at hov
    cases hov
  | encoder heff => exact ⟨rfl, by simp [heff.obs_rx.1]⟩
  | take => exact absurd rfl htake
  | reset => exact absurd rfl hreset
  | frame => exact ⟨rfl, rfl⟩

section
variable {carry : Bool} {r r' : Rx} {b : Byte} {i : Instr} {o : RxOut}

/-- `AwaitingLength` is left by a length byte, whatever it is (R74, R75). -/
theorem Rx.Effect.of_leaving_awaitingLength (h : r.Effect carry b i r' o) (hst : r.state = .awaitingLength)
    (hleft : r'.state ≠ .awaitingLength) : i = .rxLenOk b ∨ i = .rxLenOversize b := by
  cases h with
  | lenOk => exact .inl rfl
  | lenOversize => exact .inr rfl
  | seekHit => exact absurd (by simp) hleft
  | seekMiss hst' => rw [hst] at hst'; cases hst'
  | data hst' => rw [hst] at hst'; cases hst'
  | csumOk hst' => rw [hst] at hst'; cases hst'
  | csumFail hst' => rw [hst] at hst'; cases hst'

/-- `Accumulating` is left by a checksum byte, after the last data byte (R77, R78). -/
theorem Rx.Effect.of_leaving_accumulating (h : r.Effect carry b i r' o) (hst : r.state = .accumulating)
    (hleft : r'.state ≠ .accumulating) : r.cursor = r.len ∧ (i = .rxCsumOk b ∨ i = .rxCsumFail b) := by
  cases h with
  | csumOk _ hc => exact ⟨hc, .inl rfl⟩
  | csumFail _ hc => exact ⟨hc, .inr rfl⟩
  | lenOk => exact absurd (by simp) hleft
  | data => exact absurd (by simpa using hst) hleft
  | seekHit hst' => rw [hst] at hst'; cases hst'
  | seekMiss hst' => rw [hst] at hst'; cases hst'
  | lenOversize hst' => rw [hst] at hst'; cases hst'

end

/-- What changes the deframer's state: a byte, or a reset, which leads to `SeekingSync`. -/
theorem State.Effect.rx_state_cases {s t : State} {i : Instr} (h : s.Effect i t) :
    (∃ b o, s.rx.Effect true b i t.rx o) ∨ (i = .reset ∧ t.rx.state = .seekingSync) ∨
      t.rx.state = s.rx.state := by
  cases h with
  | byte hin hov h => exact .inl ⟨_, _, h⟩
  | reset => exact .inr (.inl ⟨rfl, rfl⟩)
  | _ => exact .inr (.inr rfl)

/-- Settles O42: how each state is entered and left, for the byte operations; the others change it by a reset only. -/
theorem noResynchronisationInsideFrame : Obligations.NoResynchronisationInsideFrame := by
  intro i s t h
  rcases (exec_next_iff.mp h).rx_state_cases with ⟨b, o, heff⟩ | ⟨rfl, hst'⟩ | hsame
  · refine ⟨fun hst' _ => ?_, fun hst hleft => .inr ?_, fun hst hleft => .inr ⟨b, ?_⟩⟩
    · obtain ⟨hst, hhit, rfl, -⟩ := heff.of_awaitingLength hst'
      obtain ⟨-, -, rfl⟩ := syncHit_iff.mp hhit
      exact ⟨hst, rfl⟩
    · obtain ⟨hc, hi⟩ := heff.of_leaving_accumulating hst hleft
      exact ⟨hc, b, hi⟩
    · exact heff.of_leaving_awaitingLength hst hleft
  · exact ⟨fun hst => by simp [hst'] at hst, fun _ _ => .inl rfl, fun _ _ => .inl rfl⟩
  · rw [hsame]
    exact ⟨fun hst hne => absurd hst hne, fun hst hne => absurd hst hne, fun hst hne => absurd hst hne⟩

/-- Settles O44: INV3 and INV5 say that the buffer below the length is the payload last delivered. -/
theorem readPortPresentsDelivery : Obligations.ReadPortPresentsDelivery := by
  intro s hinv
  constructor
  · intro hov
    obtain ⟨d, hd, hlast⟩ := hinv.pending hov
    obtain ⟨hlen, hread⟩ := memRange_ok.mp hd
    refine ⟨d, hlast, ?_, fun i => ?_⟩
    · rw [State.rxOutLen, if_pos hov, hlen, BitVec.ofNat_toNat, BitVec.setWidth_eq]
    · by_cases hi : i < s.rx.len.toNat
      · obtain ⟨v, hv, hmem⟩ := hread i hi
        rw [Nat.zero_add] at hmem
        rw [State.rxOutRead, if_pos ⟨hov, hi⟩, hv, (memRead_ok.mp hmem).2]
      · rw [State.rxOutRead, if_neg (fun hg => hi hg.2), List.getElem?_eq_none (by omega)]
  · intro hov
    exact ⟨by simp [State.rxOutLen, hov], fun i => by simp [State.rxOutRead, hov]⟩

end Sys2Proof.Machine
end

section
/-! Fixed patterns of the encoding (10_state.md R10, R17; spec/30_encoding.md R51, R55). -/
namespace Sys2Proof

/-- Settles O31: the words, evaluated. -/
theorem specWordsDecode : Obligations.SpecWordsDecode :=
  ⟨rfl, rfl, rfl, rfl, rfl⟩

theorem RxState.ofBits_eq_some_iff (w : BitVec 2) (st : RxState) :
    RxState.ofBits w = some st ↔ st.bits = w := by
  revert w
  cases st <;> decide

theorem TxState.ofBits_eq_some_iff (w : BitVec 3) (st : TxState) :
    TxState.ofBits w = some st ↔ st.bits = w := by
  revert w
  cases st <;> decide

/-- Settles O32: the patterns of two and of three bits, one by one. -/
theorem statePatterns : Obligations.StatePatterns :=
  ⟨⟨rfl, rfl, rfl⟩, ⟨rfl, rfl, rfl, rfl, rfl, rfl⟩, RxState.ofBits_eq_some_iff, by decide,
    TxState.ofBits_eq_some_iff, by decide⟩

end Sys2Proof
end
